-- ==== Sys2Proof/Word.lean ====
section
/-! DEFINITION. The fixed-width unsigned integers of spec/00_scope.md rule R7. Nothing in the block is
signed. -/

namespace Sys2Proof

/-- `u8`: a wire byte, an IMM8 operand, a one-byte header field (R7). -/
abbrev Byte := BitVec 8

/-- `u16`: a CRC value, an IMM16 operand, a checksum (R7). -/
abbrev U16 := BitVec 16

/-- `u24`: a message ID (R7, R48). -/
abbrev U24 := BitVec 24

/-- `u32`: a command word (R7, R36). -/
abbrev Word := BitVec 32

/-- A byte sequence, index 0 first (R8). -/
abbrev Bytes := List Byte

end Sys2Proof
end

