-- ==== Sys2Proof/Machine/Checksum.lean ====
section
/-! DEFINITION. CRC-16/MCRF4XX and the full-frame checksum (spec/40_crc.md section 1 and rule R65). -/

namespace Sys2Proof.Machine

/-- The seed of every checksum (R58). -/
def crcSeed : U16 := 0xFFFF

/-- `tmp` after the two 8-bit lines of R56. -/
def accTmp (crc : U16) (b : Byte) : Byte :=
  let tmp := b ^^^ crc.setWidth 8
  tmp ^^^ (tmp <<< 4)

/-- `acc(crc, b)`, the recurrence of R56. -/
def acc (crc : U16) (b : Byte) : U16 :=
  let tmp := (accTmp crc b).setWidth 16
  (crc >>> 8) ^^^ (tmp <<< 8) ^^^ (tmp <<< 3) ^^^ (tmp >>> 4)

/-- `fold(crc, s)` (R57). -/
def fold (crc : U16) : Bytes → U16
  | [] => crc
  | b :: s => fold (acc crc b) s

/-- `FrameChecksum(H, P, NEL, CE)` (R59): the header bytes, the payload bytes below `NEL`, the CRC-extra byte. -/
def frameChecksum (header payload : Bytes) (nel : Nat) (crcExtra : Byte) : U16 :=
  acc (fold (fold crcSeed header) (payload.take (min payload.length nel))) crcExtra

/-- One step of the reflected CRC with constant 0x8408 (R65). -/
def bitSerialStep (c : U16) : U16 :=
  if c &&& 1 = 1 then (c >>> 1) ^^^ 0x8408 else c >>> 1

/-- `n` steps of it. -/
def bitSerialSteps : Nat → U16 → U16
  | 0, c => c
  | n + 1, c => bitSerialSteps n (bitSerialStep c)

/-- The bit-serial form of `acc` (R65). -/
def accBitSerial (c : U16) (b : Byte) : U16 :=
  bitSerialSteps 8 (c ^^^ b.setWidth 16)

end Sys2Proof.Machine
end

