-- ==== Sys2Proof/Config.lean ====
section
/-! DEFINITION. What is fixed when a block is built (spec/00_scope.md section 4, rules R3 to R6), and the
values the spec leaves OPEN. -/

namespace Sys2Proof

/-- Which codes stand for a decoded message in the block that `step` runs: OPEN (R4, D14), so without a value. -/
opaque Config.isMessageCode : Nat → Bool

/-- The type `Msg` (R4, D14) of the block that `step` runs; every other definition takes the type as a parameter `M`
(R25). DESIGN CHOICE (log 6): here it is an unknown set of codes, which may be any countable set or none. -/
structure Msg where
  code : Nat
  isMessage : Config.isMessageCode code = true
  deriving DecidableEq, Repr

/-- A registry function (R3) for messages of type `M` (R4): message ID, payload, declared length, header CRC so far; it
answers nothing, or a message with its checksum. Pure and total (R3, D31; log 19). -/
abbrev Registry (M : Type) := U24 → Bytes → Byte → U16 → Option (M × U16)

/-- What a v2 frame of declared length 0 does at its last message-ID byte: `skip` is R6's value, `fault` the
cautious alternative of 93_implementation_defined.md I3. -/
inductive V2ZeroLength where
  | skip
  | fault
  deriving DecidableEq, Repr

/-- The construction-time parameters of one instance, next to its message type `M` (R3, R4, R6, R102): parameters of the
step, not state (R25). -/
structure Params (M : Type) where
  registries : List (Registry M)
  v2ZeroLength : V2ZeroLength

namespace Config

/-- `REGISTRIES` of the block that `step` runs: OPEN (R3, D13), so a constant without a value (log 7). -/
opaque registries : List (Registry Msg)

/-- `UNSUPPORTED_CRC_EXTRA` (D26): OPEN, used by the reference serializer only (log 13). -/
opaque unsupportedCrcExtra : Byte

/-- `UNSUPPORTED_NEL` (D26): OPEN, used by the reference serializer only (log 13). -/
opaque unsupportedNel : Nat

/-- `PAYLOAD_CAPACITY` (R5). -/
def payloadCapacity : Nat := 255

/-- `V2_ZERO_LENGTH` (R6, D11; log 8). -/
def v2ZeroLength : V2ZeroLength := .skip

/-- The parameters of the block that `step` runs. -/
def params : Params Msg := ⟨registries, v2ZeroLength⟩

end Config

end Sys2Proof
end

