-- ==== Sys2Proof/Machine/State.lean ====
section
/-! DEFINITION. Everything the spec gives one block instance (spec/10_state.md), with the port it is reached
through, and the reasons a step can stop. -/

namespace Sys2Proof.Machine

/-- `ST` (R11): the ten states of the parser. -/
inductive ParserState where
  | awaitStart
  | awaitLength
  | awaitIncompatFlags
  | awaitCompatFlags
  | awaitSequence
  | awaitSystemId
  | awaitComponentId
  | awaitMessageId
  | awaitPayload
  | awaitChecksum
  deriving DecidableEq, Repr

/-- The remembered start marker (R12). -/
inductive Version where
  | v1
  | v2
  deriving DecidableEq, Repr

/-- The message field of a frame (R4). Equality is structural, on a known message that of its type (R91). -/
inductive MessageValue (M : Type) where
  | known (m : M)
  | unsupported (raw : Bytes)
  deriving DecidableEq, Repr

/-- An emitted frame (R41): the variant stands for the start marker. Equality is structural (R91). -/
inductive FrameRecord (M : Type) where
  | v1 (seq sys comp : Byte) (msgId : U24) (message : MessageValue M) (expected actual : U16)
  | v2 (incompat compat seq sys comp : Byte) (msgId : U24) (message : MessageValue M) (expected actual : U16)
  deriving DecidableEq, Repr

/-- The single response of a command (R40). -/
inductive Response (M : Type) where
  | none
  | value (v : U16)
  | frame (f : FrameRecord M)
  | illegal
  deriving DecidableEq, Repr

/-- What the outside world does to one instance, one event at a time. -/
inductive HostEvent where
  /-- A command word on the port, with none outstanding (R36, R109). -/
  | command (w : Word)
  /-- The power is switched on (R105; log 4). -/
  | powerOn
  /-- Two producers present a word each before a response has come back (R33, R109; log 5). -/
  | overlapping (first second : Word)
  deriving DecidableEq, Repr

/-- Storage as (index, byte) pairs in one canonical form: indexes strictly rising, and no entry for a byte that
reads as an unlisted one does (log 9). -/
abbrev Memory := List Host.Cell

/-- The parser record (R11 to R23). -/
structure Parser where
  /-- `ST` (R11). -/
  st : ParserState
  /-- `VER` (R12). -/
  ver : Option Version
  /-- `LEN` (R13). -/
  len : Option Byte
  /-- `INCOMPAT` (R14). -/
  incompat : Option Byte
  /-- `COMPAT` (R15). -/
  compat : Option Byte
  /-- `SEQ` (R16). -/
  seq : Option Byte
  /-- `SYS` (R17). -/
  sys : Option Byte
  /-- `COMP` (R18). -/
  comp : Option Byte
  /-- `MID` (R19): the message-ID bytes so far, the low byte first. -/
  mid : Bytes
  /-- `BUF` (R20). -/
  buf : Memory
  /-- `CNT` (R20): how many payload bytes are stored. -/
  cnt : Byte
  /-- `HCRC` (R21). -/
  hcrc : U16
  /-- `CKLO` (R22). -/
  cklo : Option Byte
  /-- `CKHI` (R23). -/
  ckhi : Option Byte
  deriving DecidableEq, Repr

/-- One block instance: `ACC` (R10) and the parser record are all of its state (R25). `inbox` and `outbox` are the
model's picture of its port: the host's events not yet taken, and the responses given so far, each oldest first
(log 1, log 2). The message type is a parameter (R4, R25); where none is given it is that of the block `step` runs. -/
structure State (M : Type := Msg) where
  acc : U16
  prs : Parser
  inbox : List HostEvent
  outbox : List (Response M)
  deriving DecidableEq, Repr

/-- Why the machine stops. No run from reset meets either. -/
inductive Fault where
  /-- `PRS.BYTE` in AWAIT_PAYLOAD with `CNT = 255`: `BUF` has no byte at index 255 (R20). Safe, and ruled out by
  R27 and R88 (log 10). -/
  | bufferIndexAbsent
  /-- `PRS.BYTE` completes the message ID of a v2 frame of length 0 in a block built with
  `V2_ZERO_LENGTH = FAULT` (93_implementation_defined.md I3). Safe. The block that `step` runs has `SKIP`
  (log 8). -/
  | v2ZeroLength
  deriving DecidableEq, Repr

/-- Why a step has no meaning. -/
inductive Refusal where
  /-- Raised by an arm of `exec` that has no meaning yet. Safe. No arm raises it. -/
  | notModelled (mnemonic : String)
  /-- Raised by the port when commands overlap: "outside the model and must be refused, not interleaved" (R33).
  Safe (log 5). -/
  | overlappingIssue
  deriving DecidableEq, Repr

/-- The parser record at reset (10_state.md section 5). -/
def Parser.reset : Parser where
  st := .awaitStart
  ver := none
  len := none
  incompat := none
  compat := none
  seq := none
  sys := none
  comp := none
  mid := []
  buf := []
  cnt := 0
  hcrc := 0xFFFF
  cklo := none
  ckhi := none

/-- A block right after power-on (R105), with no event waiting and no response given (log 17). -/
def State.atPowerOn {M : Type} : State M where
  acc := 0xFFFF
  prs := Parser.reset
  inbox := []
  outbox := []

/-- The machine right after reset. -/
def State.reset : State := State.atPowerOn

end Sys2Proof.Machine
end

