-- ==== Sys2Proof/Machine/Ops.lean ====
section
/-! DEFINITION. The operations the meanings share: the payload buffer (spec/20_memory.md section 1), the registers,
the response of a command (30_encoding.md rules R38, R40), and `ClearFrame`, the block's only recovery action
(10_state.md rule R24, 60_exceptions.md rule R100: there is no exception to take and none to return from). -/

namespace Sys2Proof.Machine

variable {M : Type}

/-- What a byte that is not listed reads as: the reset contents of `BUF` (R20). -/
def Memory.unlisted : Byte := 0x00

/-- One byte of storage, listed or not. -/
def Memory.read : Memory → Nat → Byte
  | [], _ => Memory.unlisted
  | (a, c) :: rest, i => if a = i then c else Memory.read rest i

/-- The entry for a byte, or none where an unlisted byte reads the same. -/
def Memory.entry (i : Nat) (b : Byte) : Memory :=
  if b = Memory.unlisted then [] else [(i, b)]

/-- `BUF[i] <- b` (R9), keeping the canonical form. -/
def Memory.write : Memory → Nat → Byte → Memory
  | [], i, b => Memory.entry i b
  | (a, c) :: rest, i, b =>
    if i < a then Memory.entry i b ++ (a, c) :: rest
    else if i = a then Memory.entry i b ++ rest
    else (a, c) :: Memory.write rest i b

/-- The canonical form: indexes rise strictly, every listed byte exists (R20: indexes 0 to 254), and none is listed
that would read the same unlisted. -/
abbrev Memory.wf (m : Memory) : Prop :=
  m.Pairwise (fun x y => x.1 < y.1) ∧ ∀ c ∈ m, c.1 < Config.payloadCapacity ∧ c.2 ≠ Memory.unlisted

/-- `BUF[0 .. n)`: the first `n` bytes, in arrival order (R8, R26). -/
def Memory.firstBytes (m : Memory) (n : Nat) : Bytes := (List.range n).map m.read

/-- `ClearFrame()` (R24). -/
def Parser.clearFrame (p : Parser) : Parser :=
  { p with
    st := .awaitStart
    ver := none
    len := none
    incompat := none
    compat := none
    seq := none
    sys := none
    comp := none
    mid := []
    buf := []
    cnt := 0
    hcrc := crcSeed
    cklo := none
    ckhi := none }

/-- `HCRC <- acc(HCRC, b)`, for a header byte (R21, R69 to R75). -/
def Parser.foldHeader (p : Parser) (b : Byte) : Parser := { p with hcrc := acc p.hcrc b }

/-- `need`: the message-ID bytes of the frame, 1 in v1 and 3 in v2 (R75). -/
def Parser.need (p : Parser) : Nat := if p.ver = some .v1 then 1 else 3

/-- The index of `BUF` that AWAIT_PAYLOAD stores to (R26, R76). -/
def Parser.storeIndex (p : Parser) : Nat := p.cnt.toNat

/-- `ACC <- v` (R10). -/
def State.setAcc (s : State M) (v : U16) : State M := { s with acc := v }

/-- The parser record is replaced; `ACC` and the port stay (R1). -/
def State.setParser (s : State M) (p : Parser) : State M := { s with prs := p }

/-- `respond r` (R9, R40): the one response of the current command. -/
def State.respond (s : State M) (r : Response M) : State M := { s with outbox := s.outbox ++ [r] }

/-- An illegal word: the response is `ILLEGAL` and no state changes (R38). -/
def State.illegal (s : State M) : State M := s.respond .illegal

/-- Power-on: every piece of state of the block takes its reset value (R105). The port's lists stay (log 4). -/
def State.powerOn (s : State M) : State M := { (State.atPowerOn : State M) with inbox := s.inbox, outbox := s.outbox }

/-- The responses a run from `s` to `t` has added. -/
def State.responsesSince (s t : State M) : List (Response M) := t.outbox.drop s.outbox.length

end Sys2Proof.Machine
end

