-- ==== Sys2Proof/Machine/CrcUnit.lean ====
section
/-! DEFINITION. The five CRC commands (spec/40_crc.md section 2). -/

namespace Sys2Proof.Machine

variable {M : Type}

/-- `CRC.STEP crc16, byte` (R60). -/
def execCrcStep (crc : U16) (byte : Byte) (s : State M) : Host.Outcome (State M) Fault Refusal :=
  .next (s.respond (.value (acc crc byte)))

/-- `CRC.INIT` (R61). -/
def execCrcInit (s : State M) : Host.Outcome (State M) Fault Refusal :=
  .next ((s.setAcc crcSeed).respond .none)

/-- `CRC.LOAD crc16` (R62). -/
def execCrcLoad (crc : U16) (s : State M) : Host.Outcome (State M) Fault Refusal :=
  .next ((s.setAcc crc).respond .none)

/-- `CRC.ACC byte` (R63): the response is the new value. -/
def execCrcAcc (byte : Byte) (s : State M) : Host.Outcome (State M) Fault Refusal :=
  let v := acc s.acc byte
  .next ((s.setAcc v).respond (.value v))

/-- `CRC.READ` (R64). -/
def execCrcRead (s : State M) : Host.Outcome (State M) Fault Refusal :=
  .next (s.respond (.value s.acc))

end Sys2Proof.Machine
end

