-- ==== Sys2Proof/Machine/Operands.lean ====
section
/-! DEFINITION. Multi-byte wire fields, all little-endian (spec/20_memory.md rule R28, 30_encoding.md rules R48, R49),
and the fields of a frame record (R41). The operand fields of a command word are in Decode.lean. -/

namespace Sys2Proof.Machine

variable {M : Type}

/-- `lo | hi << 8`: the checksum field (R49, R82). -/
def checksumField (lo hi : Byte) : U16 := lo.setWidth 16 ||| (hi.setWidth 16 <<< 8)

/-- The checksum bytes as sent, low byte first (R28, R52, R53). -/
def checksumBytes (c : U16) : Bytes := [c.extractLsb' 0 8, c.extractLsb' 8 8]

/-- The message ID of a v1 frame (R48). -/
def messageIdV1 (b : Byte) : U24 := b.setWidth 24

/-- The message ID of a v2 frame (R48). -/
def messageIdV2 (b0 b1 b2 : Byte) : U24 :=
  b0.setWidth 24 ||| (b1.setWidth 24 <<< 8) ||| (b2.setWidth 24 <<< 16)

/-- The three message-ID bytes of a v2 frame as sent, low to high (R28, R53). -/
def messageIdBytes (id : U24) : Bytes := [id.extractLsb' 0 8, id.extractLsb' 8 8, id.extractLsb' 16 8]

/-- The low byte of a message ID: all a v1 frame carries (R52). -/
def messageIdLow (id : U24) : Byte := id.extractLsb' 0 8

/-- `f.message` (R41). -/
def FrameRecord.message : FrameRecord M → MessageValue M
  | .v1 _ _ _ _ m _ _ => m
  | .v2 _ _ _ _ _ _ m _ _ => m

/-- `f.msgId` (R41). -/
def FrameRecord.msgId : FrameRecord M → U24
  | .v1 _ _ _ id _ _ _ => id
  | .v2 _ _ _ _ _ id _ _ _ => id

/-- `f.expected` (R41). -/
def FrameRecord.expected : FrameRecord M → U16
  | .v1 _ _ _ _ _ e _ => e
  | .v2 _ _ _ _ _ _ _ e _ => e

/-- `f.actual` (R41). -/
def FrameRecord.actual : FrameRecord M → U16
  | .v1 _ _ _ _ _ _ a => a
  | .v2 _ _ _ _ _ _ _ _ a => a

/-- The kind code of a response (R40). -/
def Response.kindCode : Response M → Nat
  | .none => 0
  | .value _ => 1
  | .frame _ => 2
  | .illegal => 3

/-- The numeric code of a parser state (R11). -/
def ParserState.code : ParserState → Nat
  | .awaitStart => 0
  | .awaitLength => 1
  | .awaitIncompatFlags => 2
  | .awaitCompatFlags => 3
  | .awaitSequence => 4
  | .awaitSystemId => 5
  | .awaitComponentId => 6
  | .awaitMessageId => 7
  | .awaitPayload => 8
  | .awaitChecksum => 9

end Sys2Proof.Machine
end

