-- ==== Sys2Proof/Machine/Registry.lean ====
section
/-! DEFINITION. The query of the registry list (spec/41_parser.md rules R80, R81) and the registries that meet the
contract of R86. -/

namespace Sys2Proof.Machine

variable {M : Type}

/-- The first answer in list order; registries after it are not asked (R80). -/
def queryRegistries (id : U24) (payload : Bytes) (declared : Byte) (headerCrc : U16) :
    List (Registry M) → Option (M × U16)
  | [] => none
  | reg :: rest =>
    match reg id payload declared headerCrc with
    | some answer => some answer
    | none => queryRegistries id payload declared headerCrc rest

/-- The message and the actual checksum of a frame: the first answer, or the fallback with the raw payload and the
unchanged header CRC (R81). -/
def recognise (regs : List (Registry M)) (id : U24) (payload : Bytes) (declared : Byte) (headerCrc : U16) :
    MessageValue M × U16 :=
  match queryRegistries id payload declared headerCrc regs with
  | some (m, c) => (.known m, c)
  | none => (.unsupported payload, headerCrc)

/-- One entry of a schema (R86): a recognised message ID with its codec's decode function, its CRC-extra byte and
its non-extension length. -/
structure SchemaEntry (M : Type) where
  msgId : U24
  decode : Bytes → Byte → M
  crcExtra : Byte
  nel : Nat

/-- The registry of a schema, by the contract of R86. Where two entries have one ID the first counts (log 16). -/
def schemaRegistry (entries : List (SchemaEntry M)) : Registry M := fun id payload declared headerCrc =>
  match entries.find? (fun e => e.msgId == id) with
  | none => none
  | some e =>
    some (e.decode payload declared, acc (fold headerCrc (payload.take (min declared.toNat e.nel))) e.crcExtra)

end Sys2Proof.Machine
end

