-- ==== Sys2Proof/Machine/ParserUnit.lean ====
section
/-! DEFINITION. The parser (spec/41_parser.md): one function per state rule, frame assembly, and the two parser
commands. In states that R88 rules out each rule is read as it is written (log 11). -/

namespace Sys2Proof.Machine

variable {M : Type}

/-- The v1 start marker (R45). -/
def markerV1 : Byte := 0xFE

/-- The v2 start marker (R45). -/
def markerV2 : Byte := 0xFD

/-- AWAIT_START (R68). The marker is not folded; any other byte is discarded. -/
def Parser.onStart (p : Parser) (b : Byte) : Parser :=
  if b = markerV1 then { p with ver := some .v1, st := .awaitLength }
  else if b = markerV2 then { p with ver := some .v2, st := .awaitLength }
  else p

/-- AWAIT_LENGTH (R69). -/
def Parser.onLength (p : Parser) (b : Byte) : Parser :=
  { p.foldHeader b with
    len := some b
    st := if p.ver = some .v2 then .awaitIncompatFlags else .awaitSequence }

/-- AWAIT_INCOMPAT_FLAGS (R70). -/
def Parser.onIncompatFlags (p : Parser) (b : Byte) : Parser :=
  { p.foldHeader b with incompat := some b, st := .awaitCompatFlags }

/-- AWAIT_COMPAT_FLAGS (R71). -/
def Parser.onCompatFlags (p : Parser) (b : Byte) : Parser :=
  { p.foldHeader b with compat := some b, st := .awaitSequence }

/-- AWAIT_SEQUENCE (R72). -/
def Parser.onSequence (p : Parser) (b : Byte) : Parser :=
  { p.foldHeader b with seq := some b, st := .awaitSystemId }

/-- AWAIT_SYSTEM_ID (R73). -/
def Parser.onSystemId (p : Parser) (b : Byte) : Parser :=
  { p.foldHeader b with sys := some b, st := .awaitComponentId }

/-- AWAIT_COMPONENT_ID (R74). -/
def Parser.onComponentId (p : Parser) (b : Byte) : Parser :=
  { p.foldHeader b with comp := some b, st := .awaitMessageId }

/-- The state after the last message-ID byte (R75): AWAIT_CHECKSUM for a declared length of 0, else AWAIT_PAYLOAD. A
v2 frame of length 0 takes the branch under `V2_ZERO_LENGTH = SKIP` (R6). -/
def Parser.afterMessageId (p : Parser) (zeroLength : V2ZeroLength) : Except Fault ParserState :=
  if p.len = some 0 then
    if p.ver = some .v2 ∧ zeroLength = .fault then .error .v2ZeroLength else .ok .awaitChecksum
  else .ok .awaitPayload

/-- `MID <- MID ++ [b]; HCRC <- acc(HCRC, b)` (R75). -/
def Parser.appendMessageId (p : Parser) (b : Byte) : Parser := { p.foldHeader b with mid := p.mid ++ [b] }

/-- AWAIT_MESSAGE_ID (R75). -/
def Parser.onMessageId (p : Parser) (zeroLength : V2ZeroLength) (b : Byte) : Except Fault Parser :=
  if (p.appendMessageId b).mid.length = p.need then
    match p.afterMessageId zeroLength with
    | .ok st => .ok { p.appendMessageId b with st := st }
    | .error f => .error f
  else .ok (p.appendMessageId b)

/-- AWAIT_PAYLOAD (R76). `HCRC` is not changed. `BUF` has no index 255 (R20; log 10). -/
def Parser.onPayload (p : Parser) (b : Byte) : Except Fault Parser :=
  if p.storeIndex < Config.payloadCapacity then
    let cnt := p.cnt + 1
    .ok { p with
      buf := p.buf.write p.storeIndex b
      cnt := cnt
      st := if some cnt = p.len then .awaitChecksum else p.st }
  else .error .bufferIndexAbsent

/-- AWAIT_CHECKSUM, first byte (R77). -/
def Parser.onChecksumLow (p : Parser) (b : Byte) : Parser := { p with cklo := some b }

/-- `P = BUF[0 .. L)` (R80). -/
def Parser.payload (p : Parser) (len : Byte) : Bytes := p.buf.firstBytes len.toNat

/-- The reassembled message ID (R48, R79), or nothing where the frame's `need` bytes are not there (R85). -/
def Parser.messageId (p : Parser) : Option U24 :=
  match p.ver, p.mid with
  | some .v1, [m0] => some (messageIdV1 m0)
  | some .v2, [m0, m1, m2] => some (messageIdV2 m0 m1 m2)
  | _, _ => none

/-- `Assemble()` up to its response (R79 to R83): the record, or nothing on a defensive failure (R85). -/
def Parser.assemble (p : Parser) (regs : List (Registry M)) : Option (FrameRecord M) := do
  let ver ← p.ver
  let len ← p.len
  let seq ← p.seq
  let sys ← p.sys
  let comp ← p.comp
  let lo ← p.cklo
  let hi ← p.ckhi
  let id ← p.messageId
  let answer := recognise regs id (p.payload len) len p.hcrc
  match ver with
  | .v1 => some (.v1 seq sys comp id answer.1 (checksumField lo hi) answer.2)
  | .v2 => do
    let incompat ← p.incompat
    let compat ← p.compat
    some (.v2 incompat compat seq sys comp id answer.1 (checksumField lo hi) answer.2)

/-- AWAIT_CHECKSUM, second byte (R78): `CKHI` is filled, the frame assembled, the record cleared (R84). -/
def Parser.onChecksumHigh (p : Parser) (regs : List (Registry M)) (b : Byte) : Parser × Response M :=
  let q := { p with ckhi := some b }
  match q.assemble regs with
  | some f => (q.clearFrame, .frame f)
  | none => (q.clearFrame, .none)

/-- AWAIT_CHECKSUM: R77 if `CKLO = none`, else R78 (R67). -/
def Parser.onChecksum (p : Parser) (regs : List (Registry M)) (b : Byte) : Parser × Response M :=
  match p.cklo with
  | none => (p.onChecksumLow b, .none)
  | some _ => p.onChecksumHigh regs b

/-- A rule that answers `NONE`. -/
def silently : Except Fault Parser → Except Fault (Parser × Response M)
  | .ok p => .ok (p, .none)
  | .error f => .error f

/-- One wire byte (R67): the rule of the current state. -/
def Parser.consume (p : Parser) (cfg : Params M) (b : Byte) : Except Fault (Parser × Response M) :=
  match p.st with
  | .awaitStart => .ok (p.onStart b, .none)
  | .awaitLength => .ok (p.onLength b, .none)
  | .awaitIncompatFlags => .ok (p.onIncompatFlags b, .none)
  | .awaitCompatFlags => .ok (p.onCompatFlags b, .none)
  | .awaitSequence => .ok (p.onSequence b, .none)
  | .awaitSystemId => .ok (p.onSystemId b, .none)
  | .awaitComponentId => .ok (p.onComponentId b, .none)
  | .awaitMessageId => silently (p.onMessageId cfg.v2ZeroLength b)
  | .awaitPayload => silently (p.onPayload b)
  | .awaitChecksum => .ok (p.onChecksum cfg.registries b)

/-- `PRS.BYTE byte` (R67) in a block built with these parameters. -/
def execPrsByteWith (cfg : Params M) (byte : Byte) (s : State M) : Host.Outcome (State M) Fault Refusal :=
  match s.prs.consume cfg byte with
  | .ok (p, r) => .next ((s.setParser p).respond r)
  | .error f => .fault f

/-- `PRS.BYTE byte` (R67) in the block that `step` runs. -/
def execPrsByte (byte : Byte) (s : State) : Host.Outcome State Fault Refusal :=
  execPrsByteWith Config.params byte s

/-- `PRS.RESET` (R87). -/
def execPrsReset (s : State M) : Host.Outcome (State M) Fault Refusal :=
  .next ((s.setParser s.prs.clearFrame).respond .none)

end Sys2Proof.Machine
end

