-- ==== Sys2Proof/Syntax.lean ====
section
/-! DEFINITION. The seven commands (spec/30_encoding.md rule R37), the two ways a word is illegal (R38) and the
assembler's lines (R42 to R44). -/

namespace Sys2Proof

/-- A command with its operands (R37): one constructor per row of spec/opcode_table.json. -/
inductive Instr where
  | crcStep (crc : U16) (byte : Byte)
  | crcInit
  | crcLoad (crc : U16)
  | crcAcc (byte : Byte)
  | crcRead
  | prsByte (byte : Byte)
  | prsReset
  deriving DecidableEq, Repr

/-- Why a word is illegal (R38). -/
inductive IllegalWord where
  /-- Its OPC is not one of the seven values of R37. -/
  | unassignedOpcode
  /-- A field that R37 marks "must be 0" is not zero. -/
  | nonzeroMustBeZero
  deriving DecidableEq, Repr

/-- The command names of R42. -/
inductive Mnemonic where
  | crcStep
  | crcInit
  | crcLoad
  | crcAcc
  | crcRead
  | prsByte
  | prsReset
  deriving DecidableEq, Repr

/-- One line of assembler source: a command with its numbers as written (R42), or one of the pseudo-instructions
of R43 and R44 (the string as its code points). -/
inductive SourceLine where
  | command (name : Mnemonic) (operands : List Nat)
  | prsBytes (bytes : List Nat)
  | crcAccs (codePoints : List Nat)
  deriving DecidableEq, Repr

end Sys2Proof
end

