-- ==== Sys2Proof/Machine/Dispatch.lean ====
section
/-! DEFINITION. One arm per command (spec/30_encoding.md rule R37). -/

namespace Sys2Proof.Machine

def exec (i : Instr) (s : State) : Host.Outcome State Fault Refusal :=
  match i with
  | .crcStep crc byte => Sys2Proof.Machine.execCrcStep crc byte s
  | .crcInit => Sys2Proof.Machine.execCrcInit s
  | .crcLoad crc => Sys2Proof.Machine.execCrcLoad crc s
  | .crcAcc byte => Sys2Proof.Machine.execCrcAcc byte s
  | .crcRead => Sys2Proof.Machine.execCrcRead s
  | .prsByte byte => Sys2Proof.Machine.execPrsByte byte s
  | .prsReset => Sys2Proof.Machine.execPrsReset s

end Sys2Proof.Machine
end

