-- ==== Sys2Proof/Decode.lean ====
section
/-! DEFINITION. Command words (spec/30_encoding.md rules R36 to R39, R42): the fields, the decoder, the encoder,
and the match and mask of every row of R37. -/

namespace Sys2Proof

/-- `OPC = W[31:24]` (R36). -/
def opcField (w : Word) : Byte := w.extractLsb' 24 8

/-- `IMM16 = W[23:8]` (R36). -/
def imm16Field (w : Word) : U16 := w.extractLsb' 8 16

/-- `IMM8 = W[7:0]` (R36). -/
def imm8Field (w : Word) : Byte := w.extractLsb' 0 8

/-- A command whose "must be 0" fields are these (R38). -/
def requireZero (fieldsAreZero : Bool) (i : Instr) : Except IllegalWord Instr :=
  if fieldsAreZero then .ok i else .error .nonzeroMustBeZero

/-- Decoding is total (R39): a command of R37, or illegal for one of the two reasons of R38. -/
def decode (w : Word) : Except IllegalWord Instr :=
  if opcField w = 0x01 then .ok (.crcStep (imm16Field w) (imm8Field w))
  else if opcField w = 0x02 then requireZero (imm16Field w == 0 && imm8Field w == 0) .crcInit
  else if opcField w = 0x03 then requireZero (imm8Field w == 0) (.crcLoad (imm16Field w))
  else if opcField w = 0x04 then requireZero (imm16Field w == 0) (.crcAcc (imm8Field w))
  else if opcField w = 0x05 then requireZero (imm16Field w == 0 && imm8Field w == 0) .crcRead
  else if opcField w = 0x10 then requireZero (imm16Field w == 0) (.prsByte (imm8Field w))
  else if opcField w = 0x11 then requireZero (imm16Field w == 0 && imm8Field w == 0) .prsReset
  else .error .unassignedOpcode

/-- `OPC << 24 | crc16 << 8 | byte` (R42): the word with these three fields (R36). -/
def packFields (opc : Byte) (imm16 : U16) (imm8 : Byte) : Word :=
  (opc.setWidth 32 <<< 24) ||| (imm16.setWidth 32 <<< 8) ||| imm8.setWidth 32

/-- The word of a command (R37); an operand a command does not take is 0 (R42). -/
def encode : Instr → Word
  | .crcStep crc byte => packFields 0x01 crc byte
  | .crcInit => packFields 0x02 0 0
  | .crcLoad crc => packFields 0x03 crc 0
  | .crcAcc byte => packFields 0x04 0 byte
  | .crcRead => packFields 0x05 0 0
  | .prsByte byte => packFields 0x10 0 byte
  | .prsReset => packFields 0x11 0 0

/-- The "match" column of R37, for the row of a command. -/
def Instr.matchBits : Instr → Word
  | .crcStep _ _ => 0x01000000
  | .crcInit => 0x02000000
  | .crcLoad _ => 0x03000000
  | .crcAcc _ => 0x04000000
  | .crcRead => 0x05000000
  | .prsByte _ => 0x10000000
  | .prsReset => 0x11000000

/-- The "mask" column of R37, for the row of a command. -/
def Instr.maskBits : Instr → Word
  | .crcStep _ _ => 0xFF000000
  | .crcInit => 0xFFFFFFFF
  | .crcLoad _ => 0xFF0000FF
  | .crcAcc _ => 0xFFFFFF00
  | .crcRead => 0xFFFFFFFF
  | .prsByte _ => 0xFFFFFF00
  | .prsReset => 0xFFFFFFFF

/-- The command word whose low `nbits` bits are `w` and whose other bits are 0. A word reaches the block whole, with no byte order
(R29; log 22). -/
def tableWord (nbits w : Nat) : Word := BitVec.ofNat 32 (w % 2 ^ nbits)

/-- The command the decoder reads from a word numbered as spec/opcode_table.json numbers it (bit 0 least
significant, R7). -/
def decodeTableWord (nbits w : Nat) : Option Instr :=
  match decode (tableWord nbits w) with
  | .ok i => some i
  | .error _ => none

end Sys2Proof
end

