-- ==== Sys2Proof/Machine/Port.lean ====
section
/-! DEFINITION. The command port (spec/20_memory.md rules R31 to R33, 30_encoding.md rules R36 to R38,
70_reset_and_hazards.md rules R105, R109): what one event of the host does. -/

namespace Sys2Proof.Machine

variable {M : Type}

/-- One command word: the command it decodes to, or `ILLEGAL` (R38, R99). -/
def State.command (run : Instr → State M → Host.Outcome (State M) Fault Refusal) (s : State M) (w : Word) :
    Host.Outcome (State M) Fault Refusal :=
  match decode w with
  | .ok i => run i s
  | .error _ => .next s.illegal

/-- The oldest waiting event, taken off the inbox; with none waiting nothing happens (R104; log 3). -/
def State.takeEvent (run : Instr → State M → Host.Outcome (State M) Fault Refusal) (s : State M) :
    Host.Outcome (State M) Fault Refusal :=
  match s.inbox with
  | [] => .next s
  | .command w :: rest => State.command run { s with inbox := rest } w
  | .powerOn :: rest => .next (State.powerOn { s with inbox := rest })
  | .overlapping _ _ :: _ => .refused .overlappingIssue

/-- The host's next event comes before those already waiting. -/
def State.presentNext (s : State M) (e : HostEvent) : State M := { s with inbox := e :: s.inbox }

/-- The host issues these words after those already waiting, in this order (R32). -/
def State.issue (s : State M) (ws : List Word) : State M := { s with inbox := s.inbox ++ ws.map .command }

end Sys2Proof.Machine
end

