-- ==== Sys2Proof/Machine/Step.lean ====
section
/-! DEFINITION. One step: the block takes the host's next event (spec/00_scope.md rule R2). -/

namespace Sys2Proof.Machine

/-- One command is one atomic step (R2). -/
def step (s : State) : Host.Outcome State Fault Refusal := s.takeEvent exec

/-- The host presents this word next (log 2). -/
def State.withFetchWord (s : State) (nbits w : Nat) : State := s.presentNext (.command (tableWord nbits w))

end Sys2Proof.Machine
end

