-- ==== Sys2Proof/WellFormed.lean ====
section
/-! DEFINITION. What the assembler checks (spec/30_encoding.md rules R42, R44). An `Instr` needs no check of its
own: its operands have the widths of their fields, so every `Instr` is well formed. -/

namespace Sys2Proof

/-- The widths of the operands a command takes, in the order R42 writes them. -/
def Mnemonic.operandWidths : Mnemonic → List Nat
  | .crcStep => [16, 8]
  | .crcInit => []
  | .crcLoad => [16]
  | .crcAcc => [8]
  | .crcRead => []
  | .prsByte => [8]
  | .prsReset => []

/-- Every operand fits its field, and none is given beyond those the command takes (R42). Fewer may be given: an
absent operand counts as 0 (log 14). -/
def operandsFit : List Nat → List Nat → Bool
  | _, [] => true
  | [], _ :: _ => false
  | width :: widths, v :: vs => decide (v < 2 ^ width) && operandsFit widths vs

/-- The lines the assembler accepts (R42, R43, R44). -/
def SourceLine.wellFormed : SourceLine → Bool
  | .command name operands => operandsFit name.operandWidths operands
  | .prsBytes bytes => bytes.all (fun b => decide (b < 2 ^ 8))
  | .crcAccs codePoints => codePoints.all (fun c => decide (c ≤ 0xFF))

end Sys2Proof
end

