-- ==== Sys2Proof/Machine/Assembler.lean ====
section
/-! DEFINITION. The assembler (spec/30_encoding.md rules R42 to R44): from a line's characters to a source line, to
commands, to words. It stands outside the block. What R42 leaves open about blanks and letters is log 15. -/

namespace Sys2Proof.Machine

/-- The operand at place `k`; an absent operand counts as 0 (R42; log 14). -/
def operandAt (operands : List Nat) (k : Nat) : Nat := (operands[k]?).getD 0

/-- The command of a line that is no pseudo-instruction (R42). -/
def commandOf (name : Mnemonic) (operands : List Nat) : Instr :=
  match name with
  | .crcStep => .crcStep (BitVec.ofNat 16 (operandAt operands 0)) (BitVec.ofNat 8 (operandAt operands 1))
  | .crcInit => .crcInit
  | .crcLoad => .crcLoad (BitVec.ofNat 16 (operandAt operands 0))
  | .crcAcc => .crcAcc (BitVec.ofNat 8 (operandAt operands 0))
  | .crcRead => .crcRead
  | .prsByte => .prsByte (BitVec.ofNat 8 (operandAt operands 0))
  | .prsReset => .prsReset

/-- The commands a line expands to (R42, R43, R44), or nothing where the assembler refuses it. -/
def expandLine (line : SourceLine) : Option (List Instr) :=
  if line.wellFormed then
    match line with
    | .command name operands => some [commandOf name operands]
    | .prsBytes bytes => some (bytes.map (fun b => .prsByte (BitVec.ofNat 8 b)))
    | .crcAccs codePoints => some (codePoints.map (fun c => .crcAcc (BitVec.ofNat 8 c)))
  else none

/-- The words of a line, in order. -/
def assembleLine (line : SourceLine) : Option (List Word) := (expandLine line).map (List.map encode)

/-- A row of neighbouring digit characters: its first one, how many there are, and the value of the first. -/
structure DigitRow where
  first : Char
  count : Nat
  value : Nat
  deriving DecidableEq, Repr

/-- The value of a character in a row of digits. -/
def DigitRow.valueOf (row : DigitRow) (c : Char) : Option Nat :=
  let place := c.toNat - row.first.toNat
  if row.first.toNat ≤ c.toNat ∧ place < row.count then some (row.value + place) else none

/-- The digits of R42's decimal and hex numbers; hex digits in upper or lower case (log 15). -/
def digitRows : List DigitRow := [⟨'0', 10, 0⟩, ⟨'A', 6, 10⟩, ⟨'a', 6, 10⟩]

/-- The value of a digit, as the one row that has it says. -/
def digitValue (c : Char) : Option Nat := digitRows.findSome? (·.valueOf c)

/-- The digits of a number in this base, the number so far given. -/
def readDigits (base : Nat) : Nat → List Char → Option Nat
  | n, [] => some n
  | n, c :: cs =>
    match digitValue c with
    | some d => if d < base then readDigits base (n * base + d) cs else none
    | none => none

/-- A number: decimal, or `0x` followed by hex digits (R42). -/
def readNumber : List Char → Option Nat
  | '0' :: 'x' :: d :: ds => readDigits 16 0 (d :: ds)
  | d :: ds => readDigits 10 0 (d :: ds)
  | [] => none

/-- A blank between the parts of a line. -/
def isBlank (c : Char) : Bool := c == ' ' || c == '\t'

/-- The characters without the blanks around them. -/
def trimBlanks (cs : List Char) : List Char :=
  ((cs.dropWhile isBlank).reverse.dropWhile isBlank).reverse

/-- The parts between commas. -/
def splitCommas : List Char → List (List Char)
  | [] => [[]]
  | c :: cs =>
    match splitCommas cs with
    | part :: parts => if c == ',' then [] :: part :: parts else (c :: part) :: parts
    | [] => [[c]]

/-- Numbers separated by commas; no characters, no numbers. -/
def readOperands (cs : List Char) : Option (List Nat) :=
  match trimBlanks cs with
  | [] => some []
  | c :: rest => (splitCommas (c :: rest)).mapM (fun part => readNumber (trimBlanks part))

/-- The code points of a string in double quotes (R44). -/
def readString (cs : List Char) : Option (List Nat) :=
  match trimBlanks cs with
  | '"' :: rest =>
    match rest.reverse with
    | '"' :: body => if body.all (· != '"') then some (body.reverse.map Char.toNat) else none
    | _ => none
  | _ => none

/-- The command names as R42 spells them. -/
def mnemonicOf (cs : List Char) : Option Mnemonic :=
  if cs = ['C', 'R', 'C', '.', 'S', 'T', 'E', 'P'] then some .crcStep
  else if cs = ['C', 'R', 'C', '.', 'I', 'N', 'I', 'T'] then some .crcInit
  else if cs = ['C', 'R', 'C', '.', 'L', 'O', 'A', 'D'] then some .crcLoad
  else if cs = ['C', 'R', 'C', '.', 'A', 'C', 'C'] then some .crcAcc
  else if cs = ['C', 'R', 'C', '.', 'R', 'E', 'A', 'D'] then some .crcRead
  else if cs = ['P', 'R', 'S', '.', 'B', 'Y', 'T', 'E'] then some .prsByte
  else if cs = ['P', 'R', 'S', '.', 'R', 'E', 'S', 'E', 'T'] then some .prsReset
  else none

/-- One line of source (R42 to R44), or nothing where it has no form of R42. -/
def readLine (cs : List Char) : Option SourceLine :=
  let line := trimBlanks cs
  let name := line.takeWhile (fun c => !isBlank c)
  let rest := line.dropWhile (fun c => !isBlank c)
  if name = ['P', 'R', 'S', '.', 'B', 'Y', 'T', 'E', 'S'] then (readOperands rest).map .prsBytes
  else if name = ['C', 'R', 'C', '.', 'A', 'C', 'C', 'S'] then (readString rest).map .crcAccs
  else
    match mnemonicOf name with
    | some m => (readOperands rest).map (.command m)
    | none => none

end Sys2Proof.Machine
end

