-- ==== Sys2Proof/Machine/Flags.lean ====
section
/-! DEFINITION. The block has no flags register (spec/10_state.md rule R25). Its one condition is `valid`, computed
from an emitted record and held nowhere (30_encoding.md rule R41). -/

namespace Sys2Proof.Machine

/-- `valid(f) = (f.expected == f.actual)` (R41). -/
def FrameRecord.valid {M : Type} (f : FrameRecord M) : Bool := f.expected == f.actual

end Sys2Proof.Machine
end

