-- ==== Sys2Proof/Machine/Bank.lean ====
section
/-! DEFINITION. Instances with parameters of their own (spec/60_exceptions.md rule R102, 00_scope.md rule R3), one or
several side by side. The block that `step` runs is the instance with `Config.params`. -/

namespace Sys2Proof.Machine

variable {M : Type}

/-- `exec` in a block built with these parameters: only `PRS.BYTE` asks them (R3, R6). -/
def execWith (cfg : Params M) (i : Instr) (s : State M) : Host.Outcome (State M) Fault Refusal :=
  match i with
  | .crcStep crc byte => execCrcStep crc byte s
  | .crcInit => execCrcInit s
  | .crcLoad crc => execCrcLoad crc s
  | .crcAcc byte => execCrcAcc byte s
  | .crcRead => execCrcRead s
  | .prsByte byte => execPrsByteWith cfg byte s
  | .prsReset => execPrsReset s

/-- One step of a block built with these parameters. -/
def stepWith (cfg : Params M) (s : State M) : Host.Outcome (State M) Fault Refusal := s.takeEvent (execWith cfg)

/-- One instance: its own parameters, its own state (R102). It has no identifier; its place in a bank is the host's
name for it. -/
structure BlockInstance (M : Type) where
  cfg : Params M
  state : State M

/-- Several instances of one host. -/
abbrev Bank (M : Type) := List (BlockInstance M)

/-- The instance at place `k` takes its next event. Nothing happens where there is none. -/
def Bank.stepAt (bank : Bank M) (k : Nat) : Host.Outcome (Bank M) Fault Refusal :=
  match bank[k]? with
  | none => .next bank
  | some inst =>
    match stepWith inst.cfg inst.state with
    | .next t => .next (bank.set k { inst with state := t })
    | .fault f => .fault f
    | .refused r => .refused r

end Sys2Proof.Machine
end

