-- ==== Sys2Proof/Machine/Messages.lean ====
section
/-! DEFINITION. The same block with its messages under other names (spec/00_scope.md rule R4): what it means that the
block passes a message on and never looks inside. -/

namespace Sys2Proof

/-- The registry that answers the renamed message. -/
def Registry.rename {M N : Type} (f : M → N) (reg : Registry M) : Registry N := fun id payload declared headerCrc =>
  (reg id payload declared headerCrc).map (fun answer => (f answer.1, answer.2))

/-- The parameters with every registry's messages renamed. -/
def Params.rename {M N : Type} (f : M → N) (cfg : Params M) : Params N :=
  ⟨cfg.registries.map (Registry.rename f), cfg.v2ZeroLength⟩

end Sys2Proof

namespace Sys2Proof.Machine

variable {M N : Type}

/-- The message field with its message renamed. -/
def MessageValue.rename (f : M → N) : MessageValue M → MessageValue N
  | .known m => .known (f m)
  | .unsupported raw => .unsupported raw

/-- The frame with its message renamed. -/
def FrameRecord.rename (f : M → N) : FrameRecord M → FrameRecord N
  | .v1 seq sys comp msgId m expected actual => .v1 seq sys comp msgId (m.rename f) expected actual
  | .v2 incompat compat seq sys comp msgId m expected actual =>
    .v2 incompat compat seq sys comp msgId (m.rename f) expected actual

/-- The response with its message, if any, renamed. -/
def Response.rename (f : M → N) : Response M → Response N
  | .none => .none
  | .value v => .value v
  | .frame r => .frame (r.rename f)
  | .illegal => .illegal

/-- The state with every message in its responses renamed. -/
def State.rename (f : M → N) (s : State M) : State N where
  acc := s.acc
  prs := s.prs
  inbox := s.inbox
  outbox := s.outbox.map (Response.rename f)

end Sys2Proof.Machine
end

