-- ==== Sys2Proof/Machine/Stream.lean ====
section
/-! DEFINITION. Commands issued one after another and what they answer (spec/20_memory.md rule R32, 30_encoding.md
rules R43, R44). -/

namespace Sys2Proof.Machine

variable {M : Type}

/-- The commands in order, stopping where the machine stops (R32). -/
def runCommands (cfg : Params M) : List Instr → State M → Host.Outcome (State M) Fault Refusal
  | [], s => .next s
  | i :: rest, s =>
    match execWith cfg i s with
    | .next t => runCommands cfg rest t
    | .fault f => .fault f
    | .refused r => .refused r

/-- `PRS.BYTES b_0, …, b_{n-1}`: one `PRS.BYTE` per byte, in that order (R43). -/
def prsBytes (bytes : Bytes) : List Instr := bytes.map .prsByte

/-- `CRC.ACCS`: one `CRC.ACC` per code point, in order (R44). -/
def crcAccs (codes : Bytes) : List Instr := codes.map .crcAcc

/-- The result of `PRS.BYTES`: the FRAME payloads among its responses, in order (R43). -/
def framesOf : List (Response M) → List (FrameRecord M)
  | [] => []
  | .frame f :: rest => f :: framesOf rest
  | .none :: rest => framesOf rest
  | .value _ :: rest => framesOf rest
  | .illegal :: rest => framesOf rest

/-- The result of `CRC.ACCS`: the VALUE of the last expansion, nothing for an empty string (R44). -/
def lastValue (rs : List (Response M)) : Option U16 :=
  match rs.getLast? with
  | some (.value v) => some v
  | _ => none

end Sys2Proof.Machine
end

