-- ==== Sys2Proof/Machine/Serializer.lean ====
section
/-! DEFINITION. The reference serializer and the wire layouts (spec/30_encoding.md rules R45 to R54). It is no command
of the block: it is what the round trip of R55 is stated against. -/

namespace Sys2Proof.Machine

variable {M : Type}

/-- What the serializer needs of a message's codec (30_encoding.md section 5). -/
structure Codec (M : Type) where
  encode : M → Bytes
  crcExtra : M → Byte
  nel : M → Nat

/-- The encoded payload: the codec's, or the raw bytes of an unsupported message (R52). -/
def Codec.payloadOf (codec : Codec M) : MessageValue M → Bytes
  | .known m => codec.encode m
  | .unsupported raw => raw

/-- The CRC-extra byte: the codec's, or the OPEN parameter (D26). -/
def Codec.crcExtraOf (codec : Codec M) : MessageValue M → Byte
  | .known m => codec.crcExtra m
  | .unsupported _ => Config.unsupportedCrcExtra

/-- The non-extension length: the codec's, or the OPEN parameter (D26). -/
def Codec.nelOf (codec : Codec M) : MessageValue M → Nat
  | .known m => codec.nel m
  | .unsupported _ => Config.unsupportedNel

/-- `P0` with every trailing 0x00 byte removed; all zeros leave nothing (R53). -/
def trimTrailingZeros : Bytes → Bytes
  | [] => []
  | b :: rest =>
    match trimTrailingZeros rest with
    | [] => if b = 0x00 then [] else [b]
    | c :: kept => b :: c :: kept

/-- The header bytes of a v1 frame (R46, R50). -/
def headerV1 (len seq sys comp msgId : Byte) : Bytes := [len, seq, sys, comp, msgId]

/-- The header bytes of a v2 frame (R47, R50), given its message-ID bytes as sent. -/
def headerV2 (len incompat compat seq sys comp : Byte) (msgId : Bytes) : Bytes :=
  [len, incompat, compat, seq, sys, comp] ++ msgId

/-- The bytes of a frame after its header is fixed: marker, header, payload, checksum low byte first (R46, R47). -/
def frameBytes (marker : Byte) (header payload : Bytes) (checksum : Bytes) : Bytes :=
  marker :: (header ++ payload ++ checksum)

/-- The length byte of a payload (R46, R47). -/
def lengthByte (payload : Bytes) : Byte := BitVec.ofNat 8 payload.length

/-- These are the bytes of one frame as R46 or R47 lays them out, whatever its header, payload and checksum bytes are;
a v2 frame of length 0 is one where the parameter lets it through (R6). -/
def IsWireFrame (zeroLength : V2ZeroLength) (bytes : Bytes) : Prop :=
  (∃ (seq sys comp msgId lo hi : Byte) (payload : Bytes), payload.length ≤ Config.payloadCapacity ∧
    bytes = frameBytes 0xFE (headerV1 (lengthByte payload) seq sys comp msgId) payload [lo, hi]) ∨
  ∃ (incompat compat seq sys comp m0 m1 m2 lo hi : Byte) (payload : Bytes), payload.length ≤ Config.payloadCapacity ∧
    (zeroLength = .skip ∨ payload ≠ []) ∧
    bytes =
      frameBytes 0xFD (headerV2 (lengthByte payload) incompat compat seq sys comp [m0, m1, m2]) payload [lo, hi]

/-- A frame with the checksum of R54, or nothing where the payload does not fit the length byte (R52, R53, D27). -/
def serializeWith (codec : Codec M) (message : MessageValue M) (marker : Byte) (header : Byte → Bytes) (payload : Bytes) :
    Option Bytes :=
  if payload.length ≤ Config.payloadCapacity then
    let h := header (lengthByte payload)
    let c := frameChecksum h payload (codec.nelOf message) (codec.crcExtraOf message)
    some (frameBytes marker h payload (checksumBytes c))
  else none

/-- `SerializeV1` (R52) and `SerializeV2` (R53): nothing where the payload is refused. -/
def serialize (codec : Codec M) : FrameRecord M → Option Bytes
  | .v1 seq sys comp msgId message _ _ =>
    serializeWith codec message 0xFE (fun len => headerV1 len seq sys comp (messageIdLow msgId))
      (codec.payloadOf message)
  | .v2 incompat compat seq sys comp msgId message _ _ =>
    serializeWith codec message 0xFD
      (fun len => headerV2 len incompat compat seq sys comp (messageIdBytes msgId))
      (trimTrailingZeros (codec.payloadOf message))

end Sys2Proof.Machine
end

