-- ==== Sys2Proof/Safety.lean ====
section
/-! DEFINITION. What holds between any two commands of a run from reset (spec/41_parser.md rule R88, 20_memory.md
rule R27), and what a safe step is. -/

namespace Sys2Proof.Machine

/-- The header bytes of the current frame consumed so far, in wire order (R50). -/
def Parser.headerSoFar (p : Parser) : Bytes :=
  p.len.toList ++ p.incompat.toList ++ p.compat.toList ++ p.seq.toList ++ p.sys.toList ++ p.comp.toList ++ p.mid

/-- The record with other values in its flag fields (R14, R15). -/
def Parser.withFlags (p : Parser) (incompat compat : Byte) : Parser :=
  { p with incompat := some incompat, compat := some compat }

/-- The invariants of R88, by their numbers there, with the canonical form of `BUF`. -/
structure Parser.Inv (p : Parser) : Prop where
  /-- R88.1 -/
  idleIsCleared : p.st = .awaitStart → p = Parser.reset
  /-- R88.2 -/
  markerKnown : p.st ≠ .awaitStart → p.ver ≠ none
  /-- R88.3 -/
  flagStatesAreV2 : p.st = .awaitIncompatFlags ∨ p.st = .awaitCompatFlags → p.ver = some .v2
  /-- R88.4 -/
  lenFilled : p.len.isSome ↔ 1 < p.st.code
  incompatFilled : p.incompat.isSome ↔ p.ver = some .v2 ∧ 2 < p.st.code
  compatFilled : p.compat.isSome ↔ p.ver = some .v2 ∧ 3 < p.st.code
  seqFilled : p.seq.isSome ↔ 4 < p.st.code
  sysFilled : p.sys.isSome ↔ 5 < p.st.code
  compFilled : p.comp.isSome ↔ 6 < p.st.code
  /-- R88.5, with no message-ID byte before AWAIT_MESSAGE_ID (R19) -/
  midEmpty : p.st.code < 7 → p.mid = []
  midShort : p.st = .awaitMessageId → p.mid.length < p.need
  midWhole : 7 < p.st.code → p.mid.length = p.need
  /-- R88.6, with no payload byte before AWAIT_PAYLOAD (R76) -/
  cntZero : p.st.code < 8 → p.cnt = 0
  payloadBound : p.st = .awaitPayload → ∃ l, p.len = some l ∧ 1 ≤ l.toNat ∧ p.cnt.toNat < l.toNat
  payloadWhole : p.st = .awaitChecksum → p.len = some p.cnt
  /-- R88.7 -/
  ckloOnlyInChecksum : p.cklo ≠ none → p.st = .awaitChecksum
  ckhiEmpty : p.ckhi = none
  /-- R88.8 -/
  headerCrc : p.hcrc = fold crcSeed p.headerSoFar
  /-- R20, R26: `BUF` is in canonical form and lists no byte at `CNT` or above -/
  bufWf : p.buf.wf
  bufBelowCnt : ∀ c ∈ p.buf, c.1 < p.cnt.toNat

/-- The invariant of a whole state: nothing constrains `ACC` or the port. -/
abbrev State.Inv {M : Type} (s : State M) : Prop := s.prs.Inv

/-- The word is answered `ILLEGAL` and nothing of the block changes (R38). -/
def AnswersIllegal (w : Word) : Prop :=
  ∀ (s : State) (rest : List HostEvent), s.inbox = .command w :: rest →
    step s = .next { s with inbox := rest, outbox := s.outbox ++ [.illegal] }

/-- `BUF` in canonical form (log 9), whatever the rest of the state is. -/
abbrev State.bufferWf {M : Type} (s : State M) : Prop := s.prs.buf.wf

/-- The next event, if any, is not an overlapping issue (R109). -/
def State.hostSerialises {M : Type} (s : State M) : Prop :=
  ∀ first second rest, s.inbox ≠ .overlapping first second :: rest

/-- A step that neither faults nor is refused. -/
def State.stepsOn (s : State) : Prop := ∃ t, step s = .next t

end Sys2Proof.Machine
end

