-- ==== Sys2Proof/Certificates/Slice0/Obligations.lean ====
section
/-! DEFINITION. The statements about this model that the provers settle. -/

open Sys2Proof Sys2Proof.Machine

/-! Encoding (30_encoding.md sections 1 and 3). -/

/-- Words written out from R37 and from the vectors of 95_test_vectors.md section 2 decode to their commands. -/
def Obligations.DecodesWordsWrittenFromTheTable : Prop :=
  decode 0x01FFFF31 = .ok (.crcStep 0xFFFF 0x31) ∧
  decode 0x02000000 = .ok .crcInit ∧
  decode 0x03C29B00 = .ok (.crcLoad 0xC29B) ∧
  decode 0x04000009 = .ok (.crcAcc 0x09) ∧
  decode 0x05000000 = .ok .crcRead ∧
  decode 0x100000FE = .ok (.prsByte 0xFE) ∧
  decode 0x11000000 = .ok .prsReset ∧
  decode 0x02000001 = .error .nonzeroMustBeZero ∧
  decode 0x06000000 = .error .unassignedOpcode

/-- Decoding the word of a command gives the command back, with every operand (R36, R37). -/
def Obligations.DecodeOfEncodeIsTheCommand : Prop :=
  ∀ i : Instr, decode (encode i) = .ok i

/-- R39: decoding is total, a word is exactly one command or illegal, and no two rows of R37 overlap. -/
def Obligations.EveryWordIsOneCommandOrIllegal : Prop :=
  (∀ w : Word,
    (∃ i, decode w = .ok i ∧ encode i = w ∧ ∀ j, encode j = w → j = i) ∨
    ((∃ e, decode w = .error e) ∧ ∀ j, encode j ≠ w)) ∧
  ∀ (w : Word) (i j : Instr),
    w &&& i.maskBits = i.matchBits → w &&& j.maskBits = j.matchBits →
      i.matchBits = j.matchBits ∧ i.maskBits = j.maskBits ∧ w.extractLsb' 24 8 = i.matchBits.extractLsb' 24 8

/-- The match and mask columns of R37 say which command a word is, for each of the seven rows. -/
def Obligations.MatchAndMaskDecideTheCommand : Prop :=
  ∀ w : Word,
    ((∃ c b, decode w = .ok (.crcStep c b)) ↔ w &&& 0xFF000000 = 0x01000000) ∧
    (decode w = .ok .crcInit ↔ w &&& 0xFFFFFFFF = 0x02000000) ∧
    ((∃ c, decode w = .ok (.crcLoad c)) ↔ w &&& 0xFF0000FF = 0x03000000) ∧
    ((∃ b, decode w = .ok (.crcAcc b)) ↔ w &&& 0xFFFFFF00 = 0x04000000) ∧
    (decode w = .ok .crcRead ↔ w &&& 0xFFFFFFFF = 0x05000000) ∧
    ((∃ b, decode w = .ok (.prsByte b)) ↔ w &&& 0xFFFFFF00 = 0x10000000) ∧
    (decode w = .ok .prsReset ↔ w &&& 0xFFFFFFFF = 0x11000000)

/-- R38: which words are illegal, and that they answer `ILLEGAL` and change nothing. -/
def Obligations.IllegalWordsAnswerIllegalAndChangeNothing : Prop :=
  ∀ w : Word,
    (decode w = .error .unassignedOpcode ↔
      (w.extractLsb' 24 8).toNat ∉ [0x01, 0x02, 0x03, 0x04, 0x05, 0x10, 0x11]) ∧
    (decode w = .error .nonzeroMustBeZero ↔
      ((w.extractLsb' 24 8).toNat ∈ [0x02, 0x05, 0x11] ∧ w.extractLsb' 0 24 ≠ 0) ∨
      ((w.extractLsb' 24 8).toNat = 0x03 ∧ w.extractLsb' 0 8 ≠ 0) ∨
      ((w.extractLsb' 24 8).toNat ∈ [0x04, 0x10] ∧ w.extractLsb' 8 16 ≠ 0)) ∧
    (∀ e, decode w = .error e → AnswersIllegal w)

/-- R42, R43 and R44, line form by line form: which lines the assembler refuses, and the words of the others, as
numbers (`OPC << 24 | crc16 << 8 | byte`) and as what they decode to. An absent operand counts as 0; that a line may leave
out an operand its command takes is the model's reading (log 14). -/
def Obligations.AssembledWordsDecodeToTheLinesCommands : Prop :=
  ∀ (ops : List Nat) (ws : List Word),
    let first := ops[0]?.getD 0
    let second := ops[1]?.getD 0
    (assembleLine (.command .crcStep ops) = none ↔ 2 < ops.length ∨ 0xFFFF < first ∨ 0xFF < second) ∧
    (assembleLine (.command .crcStep ops) = some ws →
      ws.map BitVec.toNat = [0x01 * 2 ^ 24 + first * 2 ^ 8 + second] ∧
      ws.map decode = [.ok (.crcStep (BitVec.ofNat 16 first) (BitVec.ofNat 8 second))]) ∧
    (assembleLine (.command .crcInit ops) = none ↔ ops ≠ []) ∧
    (assembleLine (.command .crcInit ops) = some ws →
      ws.map BitVec.toNat = [0x02 * 2 ^ 24] ∧ ws.map decode = [.ok .crcInit]) ∧
    (assembleLine (.command .crcLoad ops) = none ↔ 1 < ops.length ∨ 0xFFFF < first) ∧
    (assembleLine (.command .crcLoad ops) = some ws →
      ws.map BitVec.toNat = [0x03 * 2 ^ 24 + first * 2 ^ 8] ∧
      ws.map decode = [.ok (.crcLoad (BitVec.ofNat 16 first))]) ∧
    (assembleLine (.command .crcAcc ops) = none ↔ 1 < ops.length ∨ 0xFF < first) ∧
    (assembleLine (.command .crcAcc ops) = some ws →
      ws.map BitVec.toNat = [0x04 * 2 ^ 24 + first] ∧ ws.map decode = [.ok (.crcAcc (BitVec.ofNat 8 first))]) ∧
    (assembleLine (.command .crcRead ops) = none ↔ ops ≠ []) ∧
    (assembleLine (.command .crcRead ops) = some ws →
      ws.map BitVec.toNat = [0x05 * 2 ^ 24] ∧ ws.map decode = [.ok .crcRead]) ∧
    (assembleLine (.command .prsByte ops) = none ↔ 1 < ops.length ∨ 0xFF < first) ∧
    (assembleLine (.command .prsByte ops) = some ws →
      ws.map BitVec.toNat = [0x10 * 2 ^ 24 + first] ∧ ws.map decode = [.ok (.prsByte (BitVec.ofNat 8 first))]) ∧
    (assembleLine (.command .prsReset ops) = none ↔ ops ≠ []) ∧
    (assembleLine (.command .prsReset ops) = some ws →
      ws.map BitVec.toNat = [0x11 * 2 ^ 24] ∧ ws.map decode = [.ok .prsReset]) ∧
    (assembleLine (.prsBytes ops) = none ↔ ∃ b ∈ ops, 0xFF < b) ∧
    (assembleLine (.prsBytes ops) = some ws →
      ws.map BitVec.toNat = ops.map (0x10 * 2 ^ 24 + ·) ∧
      ws.map decode = ops.map (fun b => .ok (.prsByte (BitVec.ofNat 8 b)))) ∧
    (assembleLine (.crcAccs ops) = none ↔ ∃ c ∈ ops, 0xFF < c) ∧
    (assembleLine (.crcAccs ops) = some ws →
      ws.map BitVec.toNat = ops.map (0x04 * 2 ^ 24 + ·) ∧
      ws.map decode = ops.map (fun c => .ok (.crcAcc (BitVec.ofNat 8 c))))

/-! Step, port and reset (00_scope.md R2, 20_memory.md section 4, 70_reset_and_hazards.md). -/

/-- A step takes the oldest word off the inbox and runs the command it decodes to (R2, R32; the inbox is the model's
own picture of the port, log 2). -/
def Obligations.StepRunsTheDecodedCommand : Prop :=
  ∀ (s : State) (w : Word) (rest : List HostEvent) (i : Instr),
    s.inbox = .command w :: rest → decode w = .ok i → step s = exec i { s with inbox := rest }

/-- Overlapping issue is refused (R33, R109; the event is the model's own picture of it, log 5), and a step with no
command changes nothing (R104; log 3). -/
def Obligations.OverlapIsRefusedAndIdleKeepsState : Prop :=
  (∀ (s : State) (first second : Word) (rest : List HostEvent),
    s.inbox = .overlapping first second :: rest → step s = .refused .overlappingIssue) ∧
  ∀ s : State, s.inbox = [] → step s = .next s

/-- R105: power-on, from any state, sets every piece of the block's state to its reset value. -/
def Obligations.PowerOnResetsEveryRegister : Prop :=
  ∀ (s : State) (rest : List HostEvent), s.inbox = .powerOn :: rest → ∃ t, step s = .next t ∧
    t.acc = 0xFFFF ∧
    t.prs.st = .awaitStart ∧ t.prs.ver = none ∧ t.prs.len = none ∧ t.prs.incompat = none ∧ t.prs.compat = none ∧
    t.prs.seq = none ∧ t.prs.sys = none ∧ t.prs.comp = none ∧ t.prs.mid = [] ∧ t.prs.cnt = 0 ∧
    (∀ i, t.prs.buf.read i = 0x00) ∧ t.prs.hcrc = 0xFFFF ∧ t.prs.cklo = none ∧ t.prs.ckhi = none ∧
    ∀ p : Parser, p.clearFrame = t.prs

/-- What power-on leaves, from any state and right after reset (R105). That the port's lists stay is the model's own
choice (log 4), and so are those lists (logs 1 and 2). -/
def Obligations.PowerOnSetsEveryResetValue : Prop :=
  (∀ (s : State) (rest : List HostEvent), s.inbox = .powerOn :: rest →
    step s = .next { State.reset with inbox := rest, outbox := s.outbox }) ∧
  State.reset.acc = 0xFFFF ∧
  State.reset.prs.st = .awaitStart ∧ State.reset.prs.ver = none ∧ State.reset.prs.len = none ∧
  State.reset.prs.incompat = none ∧ State.reset.prs.compat = none ∧ State.reset.prs.seq = none ∧
  State.reset.prs.sys = none ∧ State.reset.prs.comp = none ∧ State.reset.prs.mid = [] ∧
  State.reset.prs.cnt = 0 ∧ (∀ i, State.reset.prs.buf.read i = 0x00) ∧ State.reset.prs.hcrc = 0xFFFF ∧
  State.reset.prs.cklo = none ∧ State.reset.prs.ckhi = none ∧
  ∀ p : Parser, p.clearFrame = State.reset.prs

/-- R40: a command on the port gives exactly one response, and the next event is the one after it. -/
def Obligations.EveryCommandGivesOneResponse : Prop :=
  ∀ (s t : State) (w : Word) (rest : List HostEvent),
    s.inbox = .command w :: rest → step s = .next t →
      ∃ r, t.outbox = s.outbox ++ [r] ∧ t.inbox = rest ∧
        (r = .illegal ↔ ∃ e, decode w = .error e)

/-- R32: the words waiting on the port run first to last, each seeing every write of the ones before it. -/
def Obligations.WaitingWordsRunInIssueOrder : Prop :=
  ∀ (is : List Instr) (s : State), s.inbox = [] →
    Host.Core.run Sys2Proof.core is.length (s.issue (is.map encode)) = runCommands Config.params is s

/-- In a state that meets the invariant, a step under a host that serialises its commands answers a next state
(R97, R109). -/
def Obligations.NoStepFaultsUnderTheInvariant : Prop :=
  ∀ s : State, s.Inv → s.hostSerialises → s.stepsOn

/-! The CRC unit (40_crc.md). -/

/-- R56, over unbounded integers with the truncations written out (R8). -/
def Obligations.AccIsTheByteRecurrence : Prop :=
  ∀ (crc : U16) (b : Byte),
    let tmp := (b.toNat ^^^ crc.toNat % 2 ^ 8) % 2 ^ 8
    let tmp := (tmp ^^^ (tmp <<< 4) % 2 ^ 8) % 2 ^ 8
    (acc crc b).toNat = ((crc.toNat >>> 8) ^^^ (tmp <<< 8) ^^^ (tmp <<< 3) ^^^ (tmp >>> 4)) % 2 ^ 16

/-- R65: both identities. -/
def Obligations.AccEqualsTheBitSerialForm : Prop :=
  ∀ (c : U16) (b : Byte), acc c b = acc (c ^^^ b.setWidth 16) 0x00 ∧ acc c b = accBitSerial c b

/-- R57. -/
def Obligations.FoldAppliesTheRecurrenceInOrder : Prop :=
  ∀ (crc : U16) (b : Byte) (first second : Bytes),
    fold crc [] = crc ∧ fold crc (b :: first) = fold (acc crc b) first ∧
    fold crc (first ++ second) = fold (fold crc first) second

/-- R66, second fact: a payload byte at index `NEL` or above does not enter the full-frame checksum. -/
def Obligations.ExtensionBytesDoNotEnterTheChecksum : Prop :=
  ∀ (header payload : Bytes) (nel i : Nat) (crcExtra b : Byte), nel ≤ i →
    frameChecksum header (payload.set i b) nel crcExtra = frameChecksum header payload nel crcExtra

/-- R60. -/
def Obligations.CrcStepRespondsWithTheRecurrence : Prop :=
  ∀ (s : State) (crc : U16) (b : Byte),
    exec (.crcStep crc b) s = .next { s with outbox := s.outbox ++ [.value (acc crc b)] } ∧
    (∀ w : Word, w &&& 0xFF000000 = 0x01000000 →
      decode w = .ok (.crcStep (w.extractLsb' 8 16) (w.extractLsb' 0 8))) ∧
    acc 0x0000 0x00 = 0x0000 ∧
    acc crc b = acc (crc ^^^ b.setWidth 16) 0x00 ∧
    acc crc b = (crc >>> 8) ^^^ acc (crc &&& 0x00FF) b ∧
    encode (.crcStep 0xFFFF 0x31) = 0x01FFFF31 ∧
    ((0x31 : Byte) ^^^ (0xFFFF : U16).setWidth 8) = 0xCE ∧ accTmp 0xFFFF 0x31 = 0x2E ∧ acc 0xFFFF 0x31 = 0x2F8D

/-- R61. -/
def Obligations.CrcInitSeedsTheAccumulator : Prop :=
  ∀ s : State,
    exec .crcInit s = .next { s with acc := 0xFFFF, outbox := s.outbox ++ [.none] } ∧
    decode 0x02000000 = .ok .crcInit ∧
    (∀ w : Word, w.extractLsb' 24 8 = 0x02 → w.extractLsb' 8 16 ≠ 0 ∨ w.extractLsb' 0 8 ≠ 0 → AnswersIllegal w)

/-- R62. -/
def Obligations.CrcLoadLoadsTheAccumulator : Prop :=
  ∀ (s : State) (v : U16),
    exec (.crcLoad v) s = .next { s with acc := v, outbox := s.outbox ++ [.none] } ∧
    (∀ w : Word, w &&& 0xFF0000FF = 0x03000000 → decode w = .ok (.crcLoad (w.extractLsb' 8 16))) ∧
    (∀ w : Word, w.extractLsb' 24 8 = 0x03 → w.extractLsb' 0 8 ≠ 0 → AnswersIllegal w) ∧
    exec (.crcLoad 0xFFFF) s = exec .crcInit s ∧
    encode (.crcLoad 0xC29B) = 0x03C29B00

/-- R63. -/
def Obligations.CrcAccFoldsOneByteIntoTheAccumulator : Prop :=
  ∀ (s : State) (b : Byte),
    exec (.crcAcc b) s =
      .next { s with acc := acc s.acc b, outbox := s.outbox ++ [.value (acc s.acc b)] } ∧
    (∀ w : Word, w &&& 0xFFFFFF00 = 0x04000000 → decode w = .ok (.crcAcc (w.extractLsb' 0 8))) ∧
    (∀ w : Word, w.extractLsb' 24 8 = 0x04 → w.extractLsb' 8 16 ≠ 0 → AnswersIllegal w) ∧
    acc 0x0000 0x00 = 0x0000 ∧ acc 0xFFFF 0xFF = 0x00FF ∧ accTmp 0xFFFF 0xFF = 0 ∧ acc 0xFFFF 0x09 = 0x9246

/-- R64, with its example: the string "123456789" gives 0x6F91. -/
def Obligations.CrcReadReturnsTheAccumulator : Prop :=
  ∀ (s : State) (cfg : Params Msg),
    exec .crcRead s = .next { s with outbox := s.outbox ++ [.value s.acc] } ∧
    decode 0x05000000 = .ok .crcRead ∧
    (∀ w : Word, w.extractLsb' 24 8 = 0x05 → w.extractLsb' 8 16 ≠ 0 ∨ w.extractLsb' 0 8 ≠ 0 → AnswersIllegal w) ∧
    exec .crcRead State.reset = .next { State.reset with outbox := [.value 0xFFFF] } ∧
    ∃ t, runCommands cfg
        ([.crcInit] ++ crcAccs [0x31, 0x32, 0x33, 0x34, 0x35, 0x36, 0x37, 0x38, 0x39] ++ [.crcRead]) s = .next t ∧
      t.outbox.getLast? = some (.value 0x6F91)

/-- R44 with R57: folding a string leaves the fold in `ACC`, and its result is the VALUE of the last expansion. -/
def Obligations.StringAccumulateFoldsEveryCodePoint : Prop :=
  ∀ (M : Type) (cfg : Params M) (s : State M) (codes : Bytes), ∃ t,
    runCommands cfg (crcAccs codes) s = .next t ∧ t.acc = fold s.acc codes ∧ t.prs = s.prs ∧ t.inbox = s.inbox ∧
    (codes = [] → t = s) ∧
    (codes ≠ [] → lastValue (s.responsesSince t) = some (fold s.acc codes))

/-! The parser, state by state (41_parser.md section 2). -/

/-- R68. -/
def Obligations.StartMarkersAreRememberedAndNoiseDiscarded : Prop :=
  ∀ (s : State) (b : Byte), s.prs.st = .awaitStart →
    exec (.prsByte b) s = .next { s with
      prs := if b = 0xFE then { s.prs with ver := some .v1, st := .awaitLength }
        else if b = 0xFD then { s.prs with ver := some .v2, st := .awaitLength }
        else s.prs
      outbox := s.outbox ++ [.none] }

/-- R69. -/
def Obligations.LengthByteIsStoredAndFolded : Prop :=
  ∀ (s : State) (b : Byte), s.prs.st = .awaitLength →
    exec (.prsByte b) s = .next { s with
      prs := { s.prs with
        len := some b
        hcrc := acc s.prs.hcrc b
        st := if s.prs.ver = some .v2 then .awaitIncompatFlags else .awaitSequence }
      outbox := s.outbox ++ [.none] }

/-- The writes, next state and response of R70 and R71. -/
def Obligations.FlagBytesAreStoredVerbatimAndFolded : Prop :=
  ∀ (s : State) (b : Byte),
    (s.prs.st = .awaitIncompatFlags →
      exec (.prsByte b) s = .next { s with
        prs := { s.prs with incompat := some b, hcrc := acc s.prs.hcrc b, st := .awaitCompatFlags }
        outbox := s.outbox ++ [.none] }) ∧
    (s.prs.st = .awaitCompatFlags →
      exec (.prsByte b) s = .next { s with
        prs := { s.prs with compat := some b, hcrc := acc s.prs.hcrc b, st := .awaitSequence }
        outbox := s.outbox ++ [.none] })

/-- R72, R73, R74. -/
def Obligations.SequenceSystemComponentAreStoredAndFolded : Prop :=
  ∀ (s : State) (b : Byte),
    (s.prs.st = .awaitSequence →
      exec (.prsByte b) s = .next { s with
        prs := { s.prs with seq := some b, hcrc := acc s.prs.hcrc b, st := .awaitSystemId }
        outbox := s.outbox ++ [.none] }) ∧
    (s.prs.st = .awaitSystemId →
      exec (.prsByte b) s = .next { s with
        prs := { s.prs with sys := some b, hcrc := acc s.prs.hcrc b, st := .awaitComponentId }
        outbox := s.outbox ++ [.none] }) ∧
    (s.prs.st = .awaitComponentId →
      exec (.prsByte b) s = .next { s with
        prs := { s.prs with comp := some b, hcrc := acc s.prs.hcrc b, st := .awaitMessageId }
        outbox := s.outbox ++ [.none] })

/-- R75, with `V2_ZERO_LENGTH = SKIP` (R6). -/
def Obligations.MessageIdByteAppendsAndBranchesOnLength : Prop :=
  ∀ (s : State) (b : Byte), s.prs.st = .awaitMessageId →
    exec (.prsByte b) s = .next { s with
      prs := { s.prs with
        mid := s.prs.mid ++ [b]
        hcrc := acc s.prs.hcrc b
        st := if s.prs.mid.length + 1 = (if s.prs.ver = some .v1 then 1 else 3) then
            (if s.prs.len = some 0 then .awaitChecksum else .awaitPayload)
          else .awaitMessageId }
      outbox := s.outbox ++ [.none] }

/-- The cautious parameter `V2_ZERO_LENGTH = FAULT` (93_implementation_defined.md I3; log 8): the last message-ID byte
stops the machine for a v2 frame of length 0, and for no other frame. -/
def Obligations.CautiousParameterStopsOnEmptyV2Frames : Prop :=
  ∀ (M : Type) (cfg : Params M) (s : State M) (b : Byte), cfg.v2ZeroLength = .fault → s.prs.st = .awaitMessageId →
    (execWith cfg (.prsByte b) s = .fault .v2ZeroLength ↔
      s.prs.ver = some .v2 ∧ s.prs.len = some 0 ∧ s.prs.mid.length = 2) ∧
    (¬(s.prs.ver = some .v2 ∧ s.prs.len = some 0 ∧ s.prs.mid.length = 2) →
      execWith cfg (.prsByte b) s = execWith { cfg with v2ZeroLength := .skip } (.prsByte b) s)

/-- R76, in every state of the record. Where the cursor is 255, which R27 rules out, `BUF` has no byte to store to and
the model faults (log 10). -/
def Obligations.PayloadByteIsStoredAtTheCursor : Prop :=
  ∀ (s : State) (b : Byte), s.prs.st = .awaitPayload →
    (s.prs.cnt ≠ 255 →
      exec (.prsByte b) s = .next { s with
        prs := { s.prs with
          buf := s.prs.buf.write s.prs.storeIndex b
          cnt := s.prs.cnt + 1
          st := if s.prs.len = some (s.prs.cnt + 1) then .awaitChecksum else .awaitPayload }
        outbox := s.outbox ++ [.none] }) ∧
    (s.prs.cnt = 255 → exec (.prsByte b) s = .fault .bufferIndexAbsent)

/-- R77. -/
def Obligations.FirstChecksumByteIsStored : Prop :=
  ∀ (s : State) (b : Byte), s.prs.st = .awaitChecksum → s.prs.cklo = none →
    exec (.prsByte b) s = .next { s with
      prs := { s.prs with cklo := some b }
      outbox := s.outbox ++ [.none] }

/-- The second checksum byte of a complete v1 record emits the frame and clears the record (R78 to R84). -/
def Obligations.SecondChecksumByteEmitsTheV1Frame : Prop :=
  ∀ (s : State) (l seq sys comp m lo b : Byte),
    s.prs.st = .awaitChecksum → s.prs.ver = some .v1 → s.prs.len = some l → s.prs.seq = some seq →
    s.prs.sys = some sys → s.prs.comp = some comp → s.prs.mid = [m] → s.prs.cklo = some lo →
    let payload := (List.range l.toNat).map s.prs.buf.read
    let answer := recognise Config.registries (m.setWidth 24) payload l s.prs.hcrc
    exec (.prsByte b) s = .next { s with
      prs := Parser.reset
      outbox := s.outbox ++ [.frame (.v1 seq sys comp (m.setWidth 24) answer.1
        (lo.setWidth 16 ||| b.setWidth 16 <<< 8) answer.2)] }

/-- The second checksum byte of a complete v2 record emits the frame and clears the record (R78 to R84). -/
def Obligations.SecondChecksumByteEmitsTheV2Frame : Prop :=
  ∀ (s : State) (l incompat compat seq sys comp m0 m1 m2 lo b : Byte),
    s.prs.st = .awaitChecksum → s.prs.ver = some .v2 → s.prs.len = some l → s.prs.incompat = some incompat →
    s.prs.compat = some compat → s.prs.seq = some seq → s.prs.sys = some sys → s.prs.comp = some comp →
    s.prs.mid = [m0, m1, m2] → s.prs.cklo = some lo →
    let id : U24 := m0.setWidth 24 ||| m1.setWidth 24 <<< 8 ||| m2.setWidth 24 <<< 16
    let payload := (List.range l.toNat).map s.prs.buf.read
    let answer := recognise Config.registries id payload l s.prs.hcrc
    exec (.prsByte b) s = .next { s with
      prs := Parser.reset
      outbox := s.outbox ++ [.frame (.v2 incompat compat seq sys comp id answer.1
        (lo.setWidth 16 ||| b.setWidth 16 <<< 8) answer.2)] }

/-- R85, with R84: when assembly fails, and what a failed assembly does. -/
def Obligations.MissingFieldGivesNoFrameAndClears : Prop :=
  ∀ (s : State) (b lo : Byte), s.prs.st = .awaitChecksum → s.prs.cklo = some lo →
    (s.prs.ver = none ∨ s.prs.len = none ∨ s.prs.seq = none ∨ s.prs.sys = none ∨ s.prs.comp = none ∨
      s.prs.mid.length ≠ (if s.prs.ver = some .v1 then 1 else 3) ∨
      (s.prs.ver = some .v2 ∧ (s.prs.incompat = none ∨ s.prs.compat = none)) ↔
    exec (.prsByte b) s = .next { s with prs := Parser.reset, outbox := s.outbox ++ [.none] })

/-- The registries are asked in list order and the first answer counts (R80). -/
def Obligations.FirstAnsweringRegistryWins : Prop :=
  ∀ (M : Type) (asked later : List (Registry M)) (reg : Registry M) (id : U24) (payload : Bytes) (l : Byte) (h : U16),
    (∀ r ∈ asked, r id payload l h = none) →
      queryRegistries id payload l h asked = none ∧
      ∀ answer, reg id payload l h = some answer →
        queryRegistries id payload l h (asked ++ reg :: later) = some answer

/-- A frame whose own message ID every registry declines, whatever else they recognise, carries that ID, the raw payload
and the header CRC, and is valid exactly when the transmitted checksum equals the header CRC (R81, R113). -/
def Obligations.UnrecognisedFrameReportsTheHeaderCrc : Prop :=
  ∀ (M : Type) (regs : List (Registry M)) (p : Parser) (l : Byte) (id : U24) (f : FrameRecord M),
    p.len = some l → p.messageId = some id →
    (∀ r ∈ regs, r id ((List.range l.toNat).map p.buf.read) l p.hcrc = none) → p.assemble regs = some f →
      f.msgId = id ∧ f.message = .unsupported ((List.range l.toNat).map p.buf.read) ∧ f.actual = p.hcrc ∧
      (f.valid = true ↔ f.expected = p.hcrc)

/-- A registry that meets the contract of R86 gives the full-frame checksum when it continues from the header CRC, and
declines what its schema does not list. R86 has a finite map; that of several entries with one message ID the first
counts is the model's own choice (log 16). -/
def Obligations.SchemaRegistryContinuesTheHeaderChecksum : Prop :=
  ∀ (M : Type) (entries : List (SchemaEntry M)) (id : U24) (header payload : Bytes), payload.length ≤ 255 →
    ((∀ e ∈ entries, e.msgId ≠ id) →
      schemaRegistry entries id payload (lengthByte payload) (fold 0xFFFF header) = none) ∧
    ∀ (before after : List (SchemaEntry M)) (e : SchemaEntry M), entries = before ++ e :: after →
      (∀ d ∈ before, d.msgId ≠ id) → e.msgId = id →
        schemaRegistry entries id payload (lengthByte payload) (fold 0xFFFF header) =
          some (e.decode payload (lengthByte payload), frameChecksum header payload e.nel e.crcExtra)

/-- R87. -/
def Obligations.PrsResetDropsThePartialFrame : Prop :=
  ∀ (s : State) (cfg : Params Msg),
    exec .prsReset s = .next { s with prs := Parser.reset, outbox := s.outbox ++ [.none] } ∧
    decode 0x11000000 = .ok .prsReset ∧
    (∀ w : Word, w.extractLsb' 24 8 = 0x11 → w.extractLsb' 8 16 ≠ 0 ∨ w.extractLsb' 0 8 ≠ 0 → AnswersIllegal w) ∧
    ∃ t u, runCommands cfg (prsBytes [0xFE, 0x09, 0x00] ++ [.prsReset]) State.reset = .next t ∧
      t.prs.st = .awaitStart ∧ t.prs.hcrc = 0xFFFF ∧
      execWith cfg (.prsByte 0x4F) t = .next u ∧ u.prs = t.prs

/-! Frames and whole-machine rules. -/

/-- Which bytes of the payload buffer each command changes (R26): AWAIT_PAYLOAD stores at the cursor, the second
checksum byte and `PRS.RESET` zero the buffer, and nothing else touches a byte. -/
def Obligations.BufferBytesChangeOnlyWhereStored : Prop :=
  ∀ (i : Instr) (s t : State), s.bufferWf → exec i s = .next t →
    ((∃ b, i = .prsByte b ∧ s.prs.st = .awaitPayload ∧ t.prs.buf.read s.prs.storeIndex = b ∧
        ∀ a, a ≠ s.prs.storeIndex → t.prs.buf.read a = s.prs.buf.read a) ∨
     ((i = .prsReset ∨ ∃ b, i = .prsByte b ∧ s.prs.st = .awaitChecksum ∧ s.prs.cklo ≠ none) ∧
        ∀ a, t.prs.buf.read a = 0x00) ∨
     ((∀ b, i = .prsByte b → s.prs.st ≠ .awaitPayload ∧ (s.prs.st = .awaitChecksum → s.prs.cklo = none)) ∧
        i ≠ .prsReset ∧ ∀ a, t.prs.buf.read a = s.prs.buf.read a))

/-- The units share no state (R1, R10): a CRC command leaves the parser record and does the same whatever it is, a
parser command leaves `ACC` and does the same whatever it is. -/
def Obligations.UnitsShareNoState : Prop :=
  ∀ (i : Instr) (s t : State), exec i s = .next t →
    ((∃ b, i = .prsByte b) ∨ i = .prsReset →
      t.acc = s.acc ∧ ∀ v, exec i (s.setAcc v) = .next (t.setAcc v)) ∧
    ((∀ b, i ≠ .prsByte b) ∧ i ≠ .prsReset →
      t.prs = s.prs ∧ ∀ p, exec i (s.setParser p) = .next (t.setParser p))

/-- A FRAME response comes only from the `PRS.BYTE` that brings the second checksum byte, and the record is clear
after it (R67, R84, R98). -/
def Obligations.FramesComeOnlyFromTheSecondChecksumByte : Prop :=
  ∀ (i : Instr) (s t : State) (f : FrameRecord Msg), exec i s = .next t → t.outbox = s.outbox ++ [.frame f] →
    ∃ b lo, i = .prsByte b ∧ s.prs.st = .awaitChecksum ∧ s.prs.cklo = some lo ∧
      f.expected = lo.setWidth 16 ||| b.setWidth 16 <<< 8 ∧ t.prs = Parser.reset ∧ t.acc = s.acc

/-- Which commands may be issued twice for once (R31): `CRC.STEP` and `CRC.READ` change no state, `CRC.INIT`,
`CRC.LOAD` and `PRS.RESET` leave the same state the second time, and `CRC.ACC` and `PRS.BYTE` need not. -/
def Obligations.FixedWritesAreIdempotent : Prop :=
  (∀ (i : Instr) (s t u : State), ((∀ b, i ≠ .crcAcc b) ∧ ∀ b, i ≠ .prsByte b) →
    exec i s = .next t → exec i t = .next u →
      u.acc = t.acc ∧ u.prs = t.prs ∧
      ((∃ c b, i = .crcStep c b) ∨ i = .crcRead → t.acc = s.acc ∧ t.prs = s.prs)) ∧
  (∃ s t u b, exec (.crcAcc b) s = .next t ∧ exec (.crcAcc b) t = .next u ∧ u.acc ≠ t.acc) ∧
  ∃ s t u b, exec (.prsByte b) s = .next t ∧ exec (.prsByte b) t = .next u ∧ u.prs ≠ t.prs

/-- After the flag states, with `HCRC` held fixed, the two stored flag fields have no effect but their own copy in the
frame (R70, R71, R114): other values in the fields give the same run with those values in the frame. It is the fields
that vary here: the flag bytes themselves were folded into `HCRC` when they came. -/
def Obligations.FlagBitsAreNotInterpreted : Prop :=
  ∀ (M : Type) (cfg : Params M) (p q : Parser) (r : Response M) (b i c i' c' : Byte),
    p.incompat = some i → p.compat = some c → p.st ≠ .awaitIncompatFlags → p.st ≠ .awaitCompatFlags →
    p.consume cfg b = .ok (q, r) →
      (r = .none ∧ q ≠ Parser.reset →
        (p.withFlags i' c').consume cfg b =
          .ok (q.withFlags i' c', .none)) ∧
      (∀ seq sys comp id m e a, r = .frame (.v2 i c seq sys comp id m e a) →
        (p.withFlags i' c').consume cfg b =
          .ok (q, .frame (.v2 i' c' seq sys comp id m e a)))

/-- Instances are independent (R102): a step of one changes neither another nor its own parameters, and its outcome
is that of the instance alone. -/
def Obligations.InstancesAreIndependent : Prop :=
  ∀ (M : Type) (bank bank' : Bank M) (k : Nat) (inst : BlockInstance M), bank[k]? = some inst →
    bank.stepAt k = .next bank' →
      bank'.length = bank.length ∧ (∀ j, j ≠ k → bank'[j]? = bank[j]?) ∧
      ∃ t, stepWith inst.cfg inst.state = .next t ∧ bank'[k]? = some { inst with state := t }

/-- The block passes a message on and never looks inside (R4), whatever the type of messages is (R25): with every message
renamed, in the registries and in the state, a step answers what it answered, renamed. -/
def Obligations.MessagesAreOnlyPassedOn : Prop :=
  ∀ (M N : Type) (f : M → N) (cfg : Params M) (s : State M),
    (∀ t, stepWith cfg s = .next t → stepWith (cfg.rename f) (s.rename f) = .next (t.rename f)) ∧
    (∀ e, stepWith cfg s = .fault e ↔ stepWith (cfg.rename f) (s.rename f) = .fault e) ∧
    ∀ e, stepWith cfg s = .refused e ↔ stepWith (cfg.rename f) (s.rename f) = .refused e

/-! Invariants (41_parser.md R88, 20_memory.md R27). -/

/-- The reset state meets the invariant. -/
def Obligations.ResetMeetsTheInvariant : Prop := State.reset.Inv

/-- Every step keeps the invariants of R88. -/
def Obligations.StepKeepsTheInvariant : Prop :=
  ∀ s t : State, s.Inv → step s = .next t → t.Inv

/-- Every step keeps the canonical form of the payload buffer, whatever the rest of the state is (the form is the
model's own, log 9). -/
def Obligations.StepKeepsTheBufferCanonical : Prop :=
  ∀ s t : State, s.bufferWf → step s = .next t → t.bufferWf

/-- R27: under the invariant, no payload byte is stored past the declared length or outside the buffer. -/
def Obligations.BufferCannotOverflow : Prop :=
  ∀ p : Parser, p.Inv →
    (∀ l, p.len = some l → p.cnt.toNat ≤ l.toNat) ∧ p.cnt.toNat ≤ 255 ∧
    (p.st = .awaitPayload → p.storeIndex ≤ 254)

/-- R97: under the invariant every byte value is taken in every parser state, answered with `NONE` or a frame, and
the parser is ready for the next byte. -/
def Obligations.NoWireInputMakesTheBlockFail : Prop :=
  ∀ (s : State) (b : Byte), s.Inv →
    ∃ t r, exec (.prsByte b) s = .next t ∧ t.outbox = s.outbox ++ [r] ∧ (r = .none ∨ ∃ f, r = .frame f) ∧
      t.Inv ∧ t.acc = s.acc ∧ t.inbox = s.inbox

/-- Under the invariant the defensive failure of R85 cannot happen: a second checksum byte always emits a frame
(R88). -/
def Obligations.DefensiveFailureIsUnreachable : Prop :=
  ∀ (s : State) (b : Byte), s.Inv → s.prs.st = .awaitChecksum → s.prs.cklo ≠ none →
    ∃ f, exec (.prsByte b) s = .next { s with prs := Parser.reset, outbox := s.outbox ++ [.frame f] }

/-! Streams (30_encoding.md sections 4 to 6, 41_parser.md R89). -/

/-- Bytes that are neither marker change nothing while the parser awaits a start (R89.1). -/
def Obligations.NoiseBeforeAMarkerChangesNothing : Prop :=
  ∀ (M : Type) (cfg : Params M) (s : State M) (noise : Bytes), s.prs.st = .awaitStart →
    (∀ b ∈ noise, b ≠ 0xFE ∧ b ≠ 0xFD) →
      runCommands cfg (prsBytes noise) s =
        .next { s with outbox := s.outbox ++ List.replicate noise.length .none }

/-- The bytes of a v1 frame as R46 lays them out, whatever their values, give one frame record on the last byte and
leave the parser as it was (R68 to R84, R89.2). -/
def Obligations.V1FrameBytesGiveOneFrame : Prop :=
  ∀ (M : Type) (cfg : Params M) (s : State M) (seq sys comp m lo hi : Byte) (payload : Bytes),
    s.prs = Parser.reset → payload.length ≤ 255 →
    let header := headerV1 (lengthByte payload) seq sys comp m
    let answer := recognise cfg.registries (messageIdV1 m) payload (lengthByte payload) (fold 0xFFFF header)
    runCommands cfg (prsBytes (frameBytes 0xFE header payload [lo, hi])) s =
      .next { s with outbox := s.outbox ++ List.replicate (7 + payload.length) .none ++
        [.frame (.v1 seq sys comp (messageIdV1 m) answer.1 (checksumField lo hi) answer.2)] }

/-- The same for the bytes of a v2 frame as R47 lays them out, length 0 included under `SKIP` (R6). -/
def Obligations.V2FrameBytesGiveOneFrame : Prop :=
  ∀ (M : Type) (cfg : Params M) (s : State M) (incompat compat seq sys comp m0 m1 m2 lo hi : Byte) (payload : Bytes),
    s.prs = Parser.reset → payload.length ≤ 255 → (cfg.v2ZeroLength = .skip ∨ payload ≠ []) →
    let header := headerV2 (lengthByte payload) incompat compat seq sys comp [m0, m1, m2]
    let id := messageIdV2 m0 m1 m2
    let answer := recognise cfg.registries id payload (lengthByte payload) (fold 0xFFFF header)
    runCommands cfg (prsBytes (frameBytes 0xFD header payload [lo, hi])) s =
      .next { s with outbox := s.outbox ++ List.replicate (11 + payload.length) .none ++
        [.frame (.v2 incompat compat seq sys comp id answer.1 (checksumField lo hi) answer.2)] }

/-- A frame, noise, and another frame, each of either version, give exactly the two frames the two give alone (R89). -/
def Obligations.TwoFramesAcrossNoiseGiveTwoFrames : Prop :=
  ∀ (M : Type) (cfg : Params M) (s : State M) (first noise second : Bytes),
    s.prs = Parser.reset → IsWireFrame cfg.v2ZeroLength first → IsWireFrame cfg.v2ZeroLength second →
    (∀ b ∈ noise, b ≠ 0xFE ∧ b ≠ 0xFD) →
    ∃ t t1 t2 f1 f2,
      runCommands cfg (prsBytes (first ++ noise ++ second)) s = .next t ∧
      runCommands cfg (prsBytes first) s = .next t1 ∧ framesOf (s.responsesSince t1) = [f1] ∧
      runCommands cfg (prsBytes second) s = .next t2 ∧ framesOf (s.responsesSince t2) = [f2] ∧
      framesOf (s.responsesSince t) = [f1, f2] ∧ t.prs = Parser.reset

/-- The message ID is little-endian on the wire, in both directions (R48). -/
def Obligations.MessageIdIsLittleEndian : Prop :=
  ∀ m0 m1 m2 : Byte,
    (messageIdV1 m0).toNat = m0.toNat ∧
    (messageIdV2 m0 m1 m2).toNat = m0.toNat + 2 ^ 8 * m1.toNat + 2 ^ 16 * m2.toNat ∧
    messageIdBytes (messageIdV2 m0 m1 m2) = [m0, m1, m2]

/-- The checksum field is little-endian on the wire, in both directions (R49). -/
def Obligations.ChecksumFieldIsLittleEndian : Prop :=
  (∀ lo hi : Byte, (checksumField lo hi).toNat = lo.toNat + 2 ^ 8 * hi.toNat ∧
    checksumBytes (checksumField lo hi) = [lo, hi]) ∧
  ∀ c : U16, ∃ lo hi, checksumBytes c = [lo, hi] ∧ checksumField lo hi = c

/-- The v2 serializer removes every trailing zero byte and no other (R53). -/
def Obligations.TrimRemovesExactlyTheTrailingZeros : Prop :=
  ∀ payload : Bytes, ∃ n,
    payload = trimTrailingZeros payload ++ List.replicate n 0x00 ∧
    (trimTrailingZeros payload).getLast? ≠ some 0x00

/-- R55 for v1: under the rule's conditions a frame read by the parser and serialised again gives its bytes back, and
where only `valid` fails the output differs in a checksum byte alone. -/
def Obligations.V1FrameRoundTrips : Prop :=
  ∀ (M : Type) (cfg : Params M) (codec : Codec M) (s : State M) (seq sys comp m lo hi : Byte) (payload : Bytes)
    (msg : M) (c : U16),
    s.prs = Parser.reset → payload.length ≤ 255 →
    let header := headerV1 (lengthByte payload) seq sys comp m
    queryRegistries (messageIdV1 m) payload (lengthByte payload) (fold 0xFFFF header) cfg.registries =
      some (msg, c) →
    codec.encode msg = payload →
    c = frameChecksum header payload (codec.nel msg) (codec.crcExtra msg) →
    ∃ t f, runCommands cfg (prsBytes (frameBytes 0xFE header payload [lo, hi])) s = .next t ∧
      framesOf (s.responsesSince t) = [f] ∧
      (f.valid = true → serialize codec f = some (frameBytes 0xFE header payload [lo, hi])) ∧
      (f.valid = false → ∃ lo' hi', serialize codec f = some (frameBytes 0xFE header payload [lo', hi']) ∧
        [lo', hi'] ≠ [lo, hi])

/-- R55 for v2: the same, the payload being the trimmed encoding (which has no trailing zero byte). -/
def Obligations.V2FrameRoundTrips : Prop :=
  ∀ (M : Type) (cfg : Params M) (codec : Codec M) (s : State M) (incompat compat seq sys comp m0 m1 m2 lo hi : Byte)
    (payload : Bytes) (msg : M) (c : U16),
    s.prs = Parser.reset → payload.length ≤ 255 → (cfg.v2ZeroLength = .skip ∨ payload ≠ []) →
    let header := headerV2 (lengthByte payload) incompat compat seq sys comp [m0, m1, m2]
    queryRegistries (messageIdV2 m0 m1 m2) payload (lengthByte payload) (fold 0xFFFF header) cfg.registries =
      some (msg, c) →
    trimTrailingZeros (codec.encode msg) = payload →
    c = frameChecksum header payload (codec.nel msg) (codec.crcExtra msg) →
    ∃ t f, runCommands cfg (prsBytes (frameBytes 0xFD header payload [lo, hi])) s = .next t ∧
      framesOf (s.responsesSince t) = [f] ∧
      (f.valid = true → serialize codec f = some (frameBytes 0xFD header payload [lo, hi])) ∧
      (f.valid = false → ∃ lo' hi', serialize codec f = some (frameBytes 0xFD header payload [lo', hi']) ∧
        [lo', hi'] ≠ [lo, hi])
end

