-- ==== Sys2Proof/Laws/Checksum.lean ====
section
/-! SUPPORT. The fold of the recurrence over byte sequences (spec/40_crc.md rule R57). -/

namespace Sys2Proof.Machine

@[simp] theorem fold_nil (c : U16) : fold c [] = c := rfl

@[simp] theorem fold_cons (c : U16) (b : Byte) (s : Bytes) : fold c (b :: s) = fold (acc c b) s := rfl

/-- A fold continues from where another stopped (R57). -/
theorem fold_append (c : U16) (s t : Bytes) : fold c (s ++ t) = fold (fold c s) t := by
  induction s generalizing c with
  | nil => rfl
  | cons b s ih => exact ih (acc c b)

/-- One more byte at the end. -/
theorem fold_concat (c : U16) (s : Bytes) (b : Byte) : fold c (s ++ [b]) = acc (fold c s) b := by
  rw [fold_append, fold_cons, fold_nil]

/-- The payload bytes a full-frame checksum folds are those below `NEL` (R59). -/
theorem frameChecksum_eq (header payload : Bytes) (nel : Nat) (crcExtra : Byte) :
    frameChecksum header payload nel crcExtra = acc (fold crcSeed (header ++ payload.take nel)) crcExtra := by
  have : payload.take (min payload.length nel) = payload.take nel := by
    rw [List.take_eq_take_iff]; omega
  rw [frameChecksum, fold_append, this]

end Sys2Proof.Machine
end

