-- ==== Sys2Proof/Laws/Decode.lean ====
section
/-! SUPPORT. The fields of a packed word and the word of its fields (spec/30_encoding.md rule R36). -/

namespace Sys2Proof

theorem opcField_packFields (opc : Byte) (imm16 : U16) (imm8 : Byte) :
    opcField (packFields opc imm16 imm8) = opc := by
  apply BitVec.eq_of_getLsbD_eq
  intro i hi
  have h8 : imm8.getLsbD (24 + i) = false := BitVec.getLsbD_of_ge imm8 _ (by omega)
  simp [opcField, packFields, hi, h8, show 24 + i < 32 by omega, show 24 + i - 8 = 16 + i by omega]

theorem imm16Field_packFields (opc : Byte) (imm16 : U16) (imm8 : Byte) :
    imm16Field (packFields opc imm16 imm8) = imm16 := by
  apply BitVec.eq_of_getLsbD_eq
  intro i hi
  simp [imm16Field, packFields, hi, show 8 + i < 32 by omega, show 8 + i < 24 by omega]

theorem imm8Field_packFields (opc : Byte) (imm16 : U16) (imm8 : Byte) :
    imm8Field (packFields opc imm16 imm8) = imm8 := by
  apply BitVec.eq_of_getLsbD_eq
  intro i hi
  simp [imm8Field, packFields, hi, show i < 32 by omega, show i < 24 by omega]

/-- A word is its three fields. -/
theorem packFields_fields (w : Word) : packFields (opcField w) (imm16Field w) (imm8Field w) = w := by
  apply BitVec.eq_of_getLsbD_eq
  intro i hi
  simp only [packFields, opcField, imm16Field, imm8Field, BitVec.getLsbD_or, BitVec.getLsbD_shiftLeft,
    BitVec.getLsbD_setWidth, BitVec.getLsbD_extractLsb', hi]
  rcases Nat.lt_or_ge i 8 with h | h
  · simp [h, show i < 24 by omega]
  · rcases Nat.lt_or_ge i 24 with h' | h'
    · simp [h', show ¬ i < 8 by omega, show i - 8 < 16 by omega, show i - 8 < 32 by omega, show 8 + (i - 8) = i by omega]
    · simp [show ¬ i < 8 by omega, show ¬ i < 24 by omega, show ¬ i - 8 < 16 by omega, show i - 24 < 8 by omega,
        show i - 24 < 32 by omega, show 24 + (i - 24) = i by omega]

/-- A packed word as a number (R42). -/
theorem toNat_packFields (opc : Byte) (imm16 : U16) (imm8 : Byte) :
    (packFields opc imm16 imm8).toNat = opc.toNat * 2 ^ 24 + imm16.toNat * 2 ^ 8 + imm8.toNat := by
  have ho := opc.isLt
  have hc := imm16.isLt
  have hb := imm8.isLt
  have e1 : (opc.setWidth 32 <<< 24 : Word).toNat = opc.toNat <<< 24 := by
    simp [BitVec.toNat_shiftLeft, Nat.shiftLeft_eq]; omega
  have e2 : (imm16.setWidth 32 <<< 8 : Word).toNat = imm16.toNat <<< 8 := by
    simp [BitVec.toNat_shiftLeft, Nat.shiftLeft_eq]; omega
  have e3 : (imm8.setWidth 32 : Word).toNat = imm8.toNat := by simp; omega
  rw [packFields, BitVec.toNat_or, BitVec.toNat_or, e1, e2, e3, Nat.or_assoc,
    ← Nat.shiftLeft_add_eq_or_of_lt hb, ← Nat.shiftLeft_add_eq_or_of_lt (by rw [Nat.shiftLeft_eq]; omega)]
  simp only [Nat.shiftLeft_eq]; omega

/-- A command with a must-be-0 check decodes exactly when the check holds. -/
theorem requireZero_ok {z : Bool} {i j : Instr} : requireZero z i = .ok j ↔ z = true ∧ i = j := by
  unfold requireZero
  split <;> simp [*]

end Sys2Proof
end

