-- ==== Sys2Proof/Laws/Memory.lean ====
section
/-! SUPPORT. The payload buffer: a read after a write, every other byte alone, and the canonical form kept. -/

namespace Sys2Proof.Machine

@[simp] theorem Memory.read_nil (i : Nat) : Memory.read [] i = Memory.unlisted := rfl

theorem Memory.read_cons (c : Host.Cell) (m : Memory) (i : Nat) :
    Memory.read (c :: m) i = if c.1 = i then c.2 else Memory.read m i := rfl

theorem Memory.mem_entry {i : Nat} {b : Byte} {c : Host.Cell} (h : c ∈ Memory.entry i b) :
    c = (i, b) ∧ b ≠ Memory.unlisted := by
  unfold Memory.entry at h
  split at h
  · cases h
  · exact ⟨List.mem_singleton.mp h, ‹_›⟩

/-- A byte below every listed index is not listed. -/
theorem Memory.read_of_below (m : Memory) (i : Nat) (h : ∀ c ∈ m, i < c.1) : m.read i = Memory.unlisted := by
  induction m with
  | nil => rfl
  | cons c m ih =>
    rw [Memory.read_cons, if_neg (by have := h c (by simp); omega), ih (fun d hd => h d (by simp [hd]))]

/-- An entry put before cells of higher index reads as the byte at its index and hides no other. -/
theorem Memory.read_entry_append (m : Memory) (i j : Nat) (b : Byte) (h : ∀ c ∈ m, i < c.1) :
    Memory.read (Memory.entry i b ++ m) j = if i = j then b else m.read j := by
  unfold Memory.entry
  split
  · subst_vars
    split
    · subst_vars; simpa using Memory.read_of_below m j h
    · rfl
  · simp [Memory.read_cons]

/-- A byte that is not listed reads as the reset contents. -/
theorem Memory.read_of_unlisted (m : Memory) (i : Nat) (h : ∀ c ∈ m, c.1 ≠ i) : m.read i = Memory.unlisted := by
  induction m with
  | nil => rfl
  | cons c m ih =>
    rw [Memory.read_cons, if_neg (h c (by simp)), ih (fun d hd => h d (by simp [hd]))]

/-- Where a cell of the buffer after a write comes from. -/
theorem Memory.mem_write {m : Memory} {i : Nat} {b : Byte} {c : Host.Cell} (h : c ∈ m.write i b) :
    c ∈ m ∨ (c = (i, b) ∧ b ≠ Memory.unlisted) := by
  induction m with
  | nil => exact .inr (Memory.mem_entry h)
  | cons d m ih =>
    obtain ⟨a, x⟩ := d
    unfold Memory.write at h
    split at h
    · exact (List.mem_append.mp h).elim (fun h => .inr (Memory.mem_entry h)) .inl
    · split at h
      · exact (List.mem_append.mp h).elim (fun h => .inr (Memory.mem_entry h)) (fun h => .inl (by simp [h]))
      · rcases List.mem_cons.mp h with rfl | h
        · exact .inl (by simp)
        · exact (ih h).imp (fun h => by simp [h]) id

/-- Indexes rise strictly after a write if they did before. -/
theorem Memory.write_rising {m : Memory} (i : Nat) (b : Byte) (h : m.Pairwise (fun x y => x.1 < y.1)) :
    (m.write i b).Pairwise (fun x y => x.1 < y.1) := by
  have entry_rising : (Memory.entry i b).Pairwise (fun x y => x.1 < y.1) := by
    unfold Memory.entry; split <;> simp
  induction m with
  | nil => exact entry_rising
  | cons d m ih =>
    obtain ⟨a, x⟩ := d
    have htail := List.pairwise_cons.mp h
    unfold Memory.write
    split
    · refine List.pairwise_append.mpr ⟨entry_rising, h, fun e he f hf => ?_⟩
      obtain ⟨rfl, -⟩ := Memory.mem_entry he
      rcases List.mem_cons.mp hf with rfl | hf
      · assumption
      · have := htail.1 f hf; simp at *; omega
    · split
      · subst_vars
        refine List.pairwise_append.mpr ⟨entry_rising, htail.2, fun e he f hf => ?_⟩
        obtain ⟨rfl, -⟩ := Memory.mem_entry he
        exact htail.1 f hf
      · refine List.pairwise_cons.mpr ⟨fun e he => ?_, ih htail.2⟩
        rcases Memory.mem_write he with he | ⟨rfl, -⟩
        · exact htail.1 e he
        · simp; omega

/-- Every write to a byte that exists keeps the canonical form. -/
theorem Memory.write_wf {m : Memory} {i : Nat} (b : Byte) (h : m.wf) (hi : i < Config.payloadCapacity) :
    (m.write i b).wf := by
  refine ⟨Memory.write_rising i b h.1, fun c hc => ?_⟩
  rcases Memory.mem_write hc with hc | ⟨rfl, hb⟩
  · exact h.2 c hc
  · exact ⟨hi, hb⟩

/-- A read after a write: the byte written at its index, every other byte as before. -/
theorem Memory.read_write {m : Memory} (i j : Nat) (b : Byte) (h : m.Pairwise (fun x y => x.1 < y.1)) :
    (m.write i b).read j = if i = j then b else m.read j := by
  induction m with
  | nil => simpa [Memory.write] using Memory.read_entry_append [] i j b (by simp)
  | cons d m ih =>
    obtain ⟨a, x⟩ := d
    have htail := List.pairwise_cons.mp h
    unfold Memory.write
    split
    · refine Memory.read_entry_append _ i j b (fun c hc => ?_)
      rcases List.mem_cons.mp hc with rfl | hc
      · assumption
      · have := htail.1 c hc; simp at *; omega
    · split
      · rename_i hia
        subst hia
        rw [Memory.read_entry_append m i j b htail.1, Memory.read_cons]
        simp only
        split <;> simp_all
      · rw [Memory.read_cons, Memory.read_cons, ih htail.2]
        simp only
        split <;> split <;> simp_all

@[simp] theorem Memory.length_firstBytes (m : Memory) (n : Nat) : (m.firstBytes n).length = n := by
  simp [Memory.firstBytes]

@[simp] theorem Memory.firstBytes_zero (m : Memory) : m.firstBytes 0 = [] := rfl

theorem Memory.firstBytes_succ (m : Memory) (n : Nat) : m.firstBytes (n + 1) = m.firstBytes n ++ [m.read n] := by
  simp [Memory.firstBytes, List.range_succ]

/-- Appending at the cursor appends to the bytes stored (R26). -/
theorem Memory.firstBytes_write {m : Memory} (n : Nat) (b : Byte) (h : m.Pairwise (fun x y => x.1 < y.1)) :
    (m.write n b).firstBytes (n + 1) = m.firstBytes n ++ [b] := by
  rw [Memory.firstBytes_succ, Memory.read_write n n b h, if_pos rfl]
  congr 1
  refine List.map_congr_left (fun j hj => ?_)
  rw [Memory.read_write n j b h, if_neg (by have := List.mem_range.mp hj; omega)]

end Sys2Proof.Machine
end

