-- ==== Sys2Proof/Laws/State.lean ====
section
/-! SUPPORT. What each update of the state changes and leaves, one lemma per field. -/

namespace Sys2Proof.Machine

variable {M : Type}

@[simp] theorem State.setAcc_acc (s : State M) (v : U16) : (s.setAcc v).acc = v := rfl
@[simp] theorem State.setAcc_prs (s : State M) (v : U16) : (s.setAcc v).prs = s.prs := rfl
@[simp] theorem State.setAcc_inbox (s : State M) (v : U16) : (s.setAcc v).inbox = s.inbox := rfl
@[simp] theorem State.setAcc_outbox (s : State M) (v : U16) : (s.setAcc v).outbox = s.outbox := rfl

@[simp] theorem State.setParser_acc (s : State M) (p : Parser) : (s.setParser p).acc = s.acc := rfl
@[simp] theorem State.setParser_prs (s : State M) (p : Parser) : (s.setParser p).prs = p := rfl
@[simp] theorem State.setParser_inbox (s : State M) (p : Parser) : (s.setParser p).inbox = s.inbox := rfl
@[simp] theorem State.setParser_outbox (s : State M) (p : Parser) : (s.setParser p).outbox = s.outbox := rfl

@[simp] theorem State.respond_acc (s : State M) (r : Response M) : (s.respond r).acc = s.acc := rfl
@[simp] theorem State.respond_prs (s : State M) (r : Response M) : (s.respond r).prs = s.prs := rfl
@[simp] theorem State.respond_inbox (s : State M) (r : Response M) : (s.respond r).inbox = s.inbox := rfl
@[simp] theorem State.respond_outbox (s : State M) (r : Response M) : (s.respond r).outbox = s.outbox ++ [r] := rfl

@[simp] theorem State.illegal_acc (s : State M) : s.illegal.acc = s.acc := rfl
@[simp] theorem State.illegal_prs (s : State M) : s.illegal.prs = s.prs := rfl
@[simp] theorem State.illegal_inbox (s : State M) : s.illegal.inbox = s.inbox := rfl
@[simp] theorem State.illegal_outbox (s : State M) : s.illegal.outbox = s.outbox ++ [.illegal] := rfl

@[simp] theorem State.powerOn_acc (s : State M) : s.powerOn.acc = crcSeed := rfl
@[simp] theorem State.powerOn_prs (s : State M) : s.powerOn.prs = Parser.reset := rfl
@[simp] theorem State.powerOn_inbox (s : State M) : s.powerOn.inbox = s.inbox := rfl
@[simp] theorem State.powerOn_outbox (s : State M) : s.powerOn.outbox = s.outbox := rfl

/-- Replacing the parser record by itself is no change. -/
@[simp] theorem State.setParser_self (s : State M) : s.setParser s.prs = s := rfl

/-- `ClearFrame` leaves the reset record, whatever was there (R24). -/
@[simp] theorem Parser.clearFrame_eq_reset (p : Parser) : p.clearFrame = Parser.reset := rfl

@[simp] theorem Parser.foldHeader_hcrc (p : Parser) (b : Byte) : (p.foldHeader b).hcrc = acc p.hcrc b := rfl
@[simp] theorem Parser.foldHeader_st (p : Parser) (b : Byte) : (p.foldHeader b).st = p.st := rfl
@[simp] theorem Parser.foldHeader_ver (p : Parser) (b : Byte) : (p.foldHeader b).ver = p.ver := rfl
@[simp] theorem Parser.foldHeader_len (p : Parser) (b : Byte) : (p.foldHeader b).len = p.len := rfl
@[simp] theorem Parser.foldHeader_incompat (p : Parser) (b : Byte) : (p.foldHeader b).incompat = p.incompat := rfl
@[simp] theorem Parser.foldHeader_compat (p : Parser) (b : Byte) : (p.foldHeader b).compat = p.compat := rfl
@[simp] theorem Parser.foldHeader_seq (p : Parser) (b : Byte) : (p.foldHeader b).seq = p.seq := rfl
@[simp] theorem Parser.foldHeader_sys (p : Parser) (b : Byte) : (p.foldHeader b).sys = p.sys := rfl
@[simp] theorem Parser.foldHeader_comp (p : Parser) (b : Byte) : (p.foldHeader b).comp = p.comp := rfl
@[simp] theorem Parser.foldHeader_mid (p : Parser) (b : Byte) : (p.foldHeader b).mid = p.mid := rfl
@[simp] theorem Parser.foldHeader_buf (p : Parser) (b : Byte) : (p.foldHeader b).buf = p.buf := rfl
@[simp] theorem Parser.foldHeader_cnt (p : Parser) (b : Byte) : (p.foldHeader b).cnt = p.cnt := rfl
@[simp] theorem Parser.foldHeader_cklo (p : Parser) (b : Byte) : (p.foldHeader b).cklo = p.cklo := rfl
@[simp] theorem Parser.foldHeader_ckhi (p : Parser) (b : Byte) : (p.foldHeader b).ckhi = p.ckhi := rfl

end Sys2Proof.Machine
end

