-- ==== Sys2Proof/Laws/Messages.lean ====
section
/-! SUPPORT. What renaming the messages changes and leaves, one lemma per field and per operation (spec/00_scope.md rule
R4). -/

namespace Sys2Proof.Machine

variable {M N : Type} (f : M → N)

@[simp] theorem State.rename_acc (s : State M) : (s.rename f).acc = s.acc := rfl
@[simp] theorem State.rename_prs (s : State M) : (s.rename f).prs = s.prs := rfl
@[simp] theorem State.rename_inbox (s : State M) : (s.rename f).inbox = s.inbox := rfl
@[simp] theorem State.rename_outbox (s : State M) : (s.rename f).outbox = s.outbox.map (Response.rename f) := rfl

@[simp] theorem Params.rename_registries (cfg : Params M) :
    (cfg.rename f).registries = cfg.registries.map (Registry.rename f) := rfl
@[simp] theorem Params.rename_v2ZeroLength (cfg : Params M) : (cfg.rename f).v2ZeroLength = cfg.v2ZeroLength := rfl

@[simp] theorem Response.rename_none : Response.rename f .none = .none := rfl
@[simp] theorem Response.rename_value (v : U16) : Response.rename f (.value v) = .value v := rfl
@[simp] theorem Response.rename_frame (r : FrameRecord M) : Response.rename f (.frame r) = .frame (r.rename f) := rfl
@[simp] theorem Response.rename_illegal : Response.rename f .illegal = .illegal := rfl

@[simp] theorem State.rename_setAcc (s : State M) (v : U16) : (s.setAcc v).rename f = (s.rename f).setAcc v := rfl
@[simp] theorem State.rename_setParser (s : State M) (p : Parser) :
    (s.setParser p).rename f = (s.rename f).setParser p := rfl
@[simp] theorem State.rename_respond (s : State M) (r : Response M) :
    (s.respond r).rename f = (s.rename f).respond (r.rename f) := by
  simp [State.rename, State.respond]
@[simp] theorem State.rename_illegal (s : State M) : s.illegal.rename f = (s.rename f).illegal := by
  simp [State.illegal]
@[simp] theorem State.rename_powerOn (s : State M) : s.powerOn.rename f = (s.rename f).powerOn := rfl

/-- The registries answer the renamed message where they answered the message (R80). -/
theorem queryRegistries_rename (regs : List (Registry M)) (id : U24) (payload : Bytes) (declared : Byte) (h : U16) :
    queryRegistries id payload declared h (regs.map (Registry.rename f)) =
      (queryRegistries id payload declared h regs).map (fun answer => (f answer.1, answer.2)) := by
  induction regs with
  | nil => rfl
  | cons reg rest ih =>
    simp only [List.map_cons, queryRegistries, Registry.rename]
    cases reg id payload declared h with
    | none => exact ih
    | some answer => rfl

/-- So does the fallback (R81). -/
theorem recognise_rename (regs : List (Registry M)) (id : U24) (payload : Bytes) (declared : Byte) (h : U16) :
    recognise (regs.map (Registry.rename f)) id payload declared h =
      ((recognise regs id payload declared h).1.rename f, (recognise regs id payload declared h).2) := by
  unfold recognise
  rw [queryRegistries_rename]
  cases queryRegistries id payload declared h regs <;> rfl

end Sys2Proof.Machine
end

