-- ==== Sys2Proof/Laws/ParserUnit.lean ====
section
/-! SUPPORT. What one wire byte does in each parser state, and what frame assembly answers (spec/41_parser.md
sections 2 and 3). -/

namespace Sys2Proof.Machine

variable {M : Type} {p q : Parser} {cfg : Params M} {b : Byte}

theorem Parser.consume_start (h : p.st = .awaitStart) : p.consume cfg b = .ok (p.onStart b, .none) := by
  simp [consume, h]

theorem Parser.consume_length (h : p.st = .awaitLength) : p.consume cfg b = .ok (p.onLength b, .none) := by
  simp [consume, h]

theorem Parser.consume_incompatFlags (h : p.st = .awaitIncompatFlags) :
    p.consume cfg b = .ok (p.onIncompatFlags b, .none) := by
  simp [consume, h]

theorem Parser.consume_compatFlags (h : p.st = .awaitCompatFlags) :
    p.consume cfg b = .ok (p.onCompatFlags b, .none) := by
  simp [consume, h]

theorem Parser.consume_sequence (h : p.st = .awaitSequence) : p.consume cfg b = .ok (p.onSequence b, .none) := by
  simp [consume, h]

theorem Parser.consume_systemId (h : p.st = .awaitSystemId) : p.consume cfg b = .ok (p.onSystemId b, .none) := by
  simp [consume, h]

theorem Parser.consume_componentId (h : p.st = .awaitComponentId) :
    p.consume cfg b = .ok (p.onComponentId b, .none) := by
  simp [consume, h]

theorem Parser.consume_messageId (h : p.st = .awaitMessageId) :
    p.consume cfg b = silently (p.onMessageId cfg.v2ZeroLength b) := by
  simp [consume, h]

theorem Parser.consume_payload (h : p.st = .awaitPayload) : p.consume cfg b = silently (p.onPayload b) := by
  simp [consume, h]

theorem Parser.consume_checksum (h : p.st = .awaitChecksum) :
    p.consume cfg b = .ok (p.onChecksum cfg.registries b) := by
  simp [consume, h]

@[simp] theorem silently_ok (p : Parser) : silently (M := M) (.ok p) = .ok (p, .none) := rfl
@[simp] theorem silently_error (f : Fault) : silently (M := M) (.error f) = .error f := rfl

/-- Under `SKIP` the state after the last message-ID byte depends on the declared length alone (R6, R75). -/
theorem Parser.afterMessageId_skip (p : Parser) :
    p.afterMessageId .skip = .ok (if p.len = some 0 then .awaitChecksum else .awaitPayload) := by
  unfold afterMessageId
  split <;> simp_all

@[simp] theorem Parser.appendMessageId_st (p : Parser) (b : Byte) : (p.appendMessageId b).st = p.st := rfl
@[simp] theorem Parser.appendMessageId_ver (p : Parser) (b : Byte) : (p.appendMessageId b).ver = p.ver := rfl
@[simp] theorem Parser.appendMessageId_len (p : Parser) (b : Byte) : (p.appendMessageId b).len = p.len := rfl
@[simp] theorem Parser.appendMessageId_incompat (p : Parser) (b : Byte) :
    (p.appendMessageId b).incompat = p.incompat := rfl
@[simp] theorem Parser.appendMessageId_compat (p : Parser) (b : Byte) :
    (p.appendMessageId b).compat = p.compat := rfl
@[simp] theorem Parser.appendMessageId_seq (p : Parser) (b : Byte) : (p.appendMessageId b).seq = p.seq := rfl
@[simp] theorem Parser.appendMessageId_sys (p : Parser) (b : Byte) : (p.appendMessageId b).sys = p.sys := rfl
@[simp] theorem Parser.appendMessageId_comp (p : Parser) (b : Byte) : (p.appendMessageId b).comp = p.comp := rfl
@[simp] theorem Parser.appendMessageId_mid (p : Parser) (b : Byte) : (p.appendMessageId b).mid = p.mid ++ [b] := rfl
@[simp] theorem Parser.appendMessageId_buf (p : Parser) (b : Byte) : (p.appendMessageId b).buf = p.buf := rfl
@[simp] theorem Parser.appendMessageId_cnt (p : Parser) (b : Byte) : (p.appendMessageId b).cnt = p.cnt := rfl
@[simp] theorem Parser.appendMessageId_hcrc (p : Parser) (b : Byte) :
    (p.appendMessageId b).hcrc = acc p.hcrc b := rfl
@[simp] theorem Parser.appendMessageId_cklo (p : Parser) (b : Byte) : (p.appendMessageId b).cklo = p.cklo := rfl
@[simp] theorem Parser.appendMessageId_ckhi (p : Parser) (b : Byte) : (p.appendMessageId b).ckhi = p.ckhi := rfl

/-- A message-ID byte that is not the frame's last is appended, and that is all (R75). -/
theorem Parser.onMessageId_more {zl : V2ZeroLength} (h : p.mid.length + 1 ≠ p.need) :
    p.onMessageId zl b = .ok (p.appendMessageId b) := by
  simp [onMessageId, h]

/-- The last message-ID byte is appended and decides the next state (R75). -/
theorem Parser.onMessageId_last_ok {zl : V2ZeroLength} {st : ParserState} (h : p.mid.length + 1 = p.need)
    (ha : p.afterMessageId zl = .ok st) : p.onMessageId zl b = .ok { p.appendMessageId b with st := st } := by
  simp [onMessageId, h, ha]

/-- The last message-ID byte faults where the next state does (I3). -/
theorem Parser.onMessageId_last_error {zl : V2ZeroLength} {f : Fault} (h : p.mid.length + 1 = p.need)
    (ha : p.afterMessageId zl = .error f) : p.onMessageId zl b = .error f := by
  simp [onMessageId, h, ha]

/-- The last message-ID byte under `SKIP` (R6, R75). -/
theorem Parser.onMessageId_last (h : p.mid.length + 1 = p.need) :
    p.onMessageId .skip b =
      .ok { p.appendMessageId b with st := if p.len = some 0 then .awaitChecksum else .awaitPayload } := by
  exact onMessageId_last_ok h p.afterMessageId_skip

/-- A payload byte below the end of the buffer is stored at the cursor (R76). -/
theorem Parser.onPayload_ok (b : Byte) (h : p.storeIndex < Config.payloadCapacity) :
    p.onPayload b =
      .ok { p with
        buf := p.buf.write p.storeIndex b
        cnt := p.cnt + 1
        st := if some (p.cnt + 1) = p.len then .awaitChecksum else p.st } := by
  simp [onPayload, h]

/-- Whatever the second checksum byte completes, the record is cleared (R84). -/
theorem Parser.onChecksumHigh_fst (p : Parser) (regs : List (Registry M)) (b : Byte) :
    (p.onChecksumHigh regs b).1 = Parser.reset := by
  unfold onChecksumHigh
  simp only
  split <;> rfl

/-- The response to the second checksum byte is the assembled record, or `NONE` (R78). -/
theorem Parser.onChecksumHigh_snd (p : Parser) (regs : List (Registry M)) (b : Byte) :
    (p.onChecksumHigh regs b).2 =
      match ({ p with ckhi := some b } : Parser).assemble regs with
      | some f => .frame f
      | none => .none := by
  unfold onChecksumHigh
  simp only
  split <;> simp [*]

/-- The first checksum byte is stored and answered `NONE` (R77). -/
theorem Parser.onChecksum_first {regs : List (Registry M)} (h : p.cklo = none) :
    p.onChecksum regs b = (p.onChecksumLow b, .none) := by
  simp [onChecksum, h]

/-- The second checksum byte clears the record and answers the assembled frame, or `NONE` (R78, R84). -/
theorem Parser.onChecksum_second {regs : List (Registry M)} {lo : Byte} (h : p.cklo = some lo) :
    p.onChecksum regs b =
      (Parser.reset,
        match ({ p with ckhi := some b } : Parser).assemble regs with
        | some f => .frame f
        | none => .none) := by
  have hb : p.onChecksum regs b = p.onChecksumHigh regs b := by simp [onChecksum, h]
  rw [hb, ← onChecksumHigh_snd, ← onChecksumHigh_fst p regs b]

/-- Every parser rule but the second checksum byte answers `NONE`, and it clears the record. -/
theorem Parser.consume_response {r : Response M} (h : p.consume cfg b = .ok (q, r)) :
    r = .none ∨ p.st = .awaitChecksum ∧ p.cklo ≠ none ∧ q = Parser.reset ∧ ∃ f, r = .frame f ∧
      ({ p with ckhi := some b } : Parser).assemble cfg.registries = some f := by
  by_cases hst : p.st = .awaitChecksum
  · rw [consume_checksum hst, Except.ok.injEq] at h
    unfold onChecksum at h
    split at h
    · simp_all
    · have h1 := congrArg Prod.fst h
      have h2 := congrArg Prod.snd h
      rw [onChecksumHigh_fst] at h1
      rw [onChecksumHigh_snd] at h2
      split at h2
      · exact .inr ⟨hst, by simp_all, h1.symm, _, h2.symm, ‹_›⟩
      · exact .inl h2.symm
  · left
    unfold consume at h
    split at h
    case h_8 => unfold silently at h; split at h <;> simp_all
    case h_9 => unfold silently at h; split at h <;> simp_all
    all_goals simp_all

end Sys2Proof.Machine
end

