-- ==== Sys2Proof/Laws/PerInstr.lean ====
section
/-! SUPPORT. Statements about every command as syntax, one lemma per constructor. Family `Encoding`: the word of a
command carries its opcode in W[31:24] and 0 in every field R37 marks "must be 0". -/

namespace Sys2Proof.Laws.Encoding

/-- What R37 fixes of a command's word. -/
def Statement (i : Instr) : Prop :=
  match i with
  | .crcStep _ _ => opcField (encode i) = 0x01
  | .crcInit => opcField (encode i) = 0x02 ∧ imm16Field (encode i) = 0 ∧ imm8Field (encode i) = 0
  | .crcLoad _ => opcField (encode i) = 0x03 ∧ imm8Field (encode i) = 0
  | .crcAcc _ => opcField (encode i) = 0x04 ∧ imm16Field (encode i) = 0
  | .crcRead => opcField (encode i) = 0x05 ∧ imm16Field (encode i) = 0 ∧ imm8Field (encode i) = 0
  | .prsByte _ => opcField (encode i) = 0x10 ∧ imm16Field (encode i) = 0
  | .prsReset => opcField (encode i) = 0x11 ∧ imm16Field (encode i) = 0 ∧ imm8Field (encode i) = 0

theorem crcStep (crc : U16) (byte : Byte) : Statement (.crcStep crc byte) := by
  simp [Statement, encode, opcField_packFields]
theorem crcInit : Statement .crcInit := by
  simp [Statement, encode, opcField_packFields, imm16Field_packFields, imm8Field_packFields]
theorem crcLoad (crc : U16) : Statement (.crcLoad crc) := by
  simp [Statement, encode, opcField_packFields, imm8Field_packFields]
theorem crcAcc (byte : Byte) : Statement (.crcAcc byte) := by
  simp [Statement, encode, opcField_packFields, imm16Field_packFields]
theorem crcRead : Statement .crcRead := by
  simp [Statement, encode, opcField_packFields, imm16Field_packFields, imm8Field_packFields]
theorem prsByte (byte : Byte) : Statement (.prsByte byte) := by
  simp [Statement, encode, opcField_packFields, imm16Field_packFields]
theorem prsReset : Statement .prsReset := by
  simp [Statement, encode, opcField_packFields, imm16Field_packFields, imm8Field_packFields]

end Sys2Proof.Laws.Encoding
end

