-- ==== Sys2Proof/Laws/Step.lean ====
section
/-! SUPPORT. What a command and a step can do, said once. -/

namespace Sys2Proof.Machine

variable {M : Type} {s t : State M} {cfg : Params M} {i : Instr}

/-- The block that `step` runs is the one with `Config.params`. -/
@[simp] theorem execWith_params (i : Instr) (s : State) : execWith Config.params i s = exec i s := by
  cases i <;> rfl

/-- `PRS.BYTE` answers exactly as its state rule does. -/
theorem execPrsByteWith_next {b : Byte} :
    execPrsByteWith cfg b s = .next t ↔
      ∃ p r, s.prs.consume cfg b = .ok (p, r) ∧ t = (s.setParser p).respond r := by
  unfold execPrsByteWith
  split
  · constructor
    · rintro h; cases h; exact ⟨_, _, ‹_›, rfl⟩
    · rintro ⟨p, r, h, rfl⟩; simp_all
  · simp_all

/-- `PRS.BYTE` of a byte its state rule takes. -/
theorem execWith_prsByte_of_consume {b : Byte} {p : Parser} {r : Response M} (h : s.prs.consume cfg b = .ok (p, r)) :
    execWith cfg (.prsByte b) s = .next ((s.setParser p).respond r) :=
  execPrsByteWith_next.mpr ⟨p, r, h, rfl⟩

/-- `PRS.BYTE` of a byte its state rule takes, in the block that `step` runs. -/
theorem exec_prsByte_of_consume {s : State} {b : Byte} {p : Parser} {r : Response Msg}
    (h : s.prs.consume Config.params b = .ok (p, r)) :
    exec (.prsByte b) s = .next ((s.setParser p).respond r) := by
  rw [← execWith_params]
  exact execWith_prsByte_of_consume h

/-- Everything a command can do: a new `ACC`, a new parser record and one response, each as its unit says. -/
theorem execWith_cases (h : execWith cfg i s = .next t) :
    ∃ a p r, t = ((s.setAcc a).setParser p).respond r ∧
      match i with
      | .crcStep c b => a = s.acc ∧ p = s.prs ∧ r = .value (acc c b)
      | .crcInit => a = crcSeed ∧ p = s.prs ∧ r = .none
      | .crcLoad v => a = v ∧ p = s.prs ∧ r = .none
      | .crcAcc b => a = acc s.acc b ∧ p = s.prs ∧ r = .value (acc s.acc b)
      | .crcRead => a = s.acc ∧ p = s.prs ∧ r = .value s.acc
      | .prsByte b => a = s.acc ∧ s.prs.consume cfg b = .ok (p, r)
      | .prsReset => a = s.acc ∧ p = Parser.reset ∧ r = .none := by
  cases i with
  | prsByte b =>
    obtain ⟨p, r, hc, rfl⟩ := execPrsByteWith_next.mp h
    exact ⟨s.acc, p, r, rfl, rfl, hc⟩
  | crcStep c b => cases h; exact ⟨_, _, _, rfl, rfl, rfl, rfl⟩
  | crcInit => cases h; exact ⟨_, _, _, rfl, rfl, rfl, rfl⟩
  | crcLoad v => cases h; exact ⟨_, _, _, rfl, rfl, rfl, rfl⟩
  | crcAcc b => cases h; exact ⟨_, _, _, rfl, rfl, rfl, rfl⟩
  | crcRead => cases h; exact ⟨_, _, _, rfl, rfl, rfl, rfl⟩
  | prsReset => cases h; exact ⟨_, _, _, rfl, rfl, rfl, rfl⟩

/-- No command is refused. -/
theorem execWith_not_refused (cfg : Params M) (i : Instr) (s : State M) (r : Refusal) :
    execWith cfg i s ≠ .refused r := by
  cases i with
  | prsByte b =>
    show execPrsByteWith cfg b s ≠ _
    unfold execPrsByteWith
    split <;> simp
  | _ => intro h; cases h

/-- Everything a step of an instance can do. -/
theorem stepWith_cases (h : stepWith cfg s = .next t) :
    (s.inbox = [] ∧ t = s) ∨
    (∃ rest, s.inbox = .powerOn :: rest ∧ t = State.powerOn { s with inbox := rest }) ∨
    (∃ w rest, s.inbox = .command w :: rest ∧
      ((∃ i, decode w = .ok i ∧ execWith cfg i { s with inbox := rest } = .next t) ∨
       (∃ e, decode w = .error e ∧ t = State.illegal { s with inbox := rest }))) := by
  unfold stepWith State.takeEvent at h
  split at h
  · cases h; exact .inl ⟨‹_›, rfl⟩
  · rename_i w rest hin
    unfold State.command at h
    split at h
    · exact .inr (.inr ⟨w, rest, hin, .inl ⟨_, ‹_›, h⟩⟩)
    · cases h; exact .inr (.inr ⟨w, rest, hin, .inr ⟨_, ‹_›, rfl⟩⟩)
  · cases h; exact .inr (.inl ⟨_, ‹_›, rfl⟩)
  · cases h

/-- `step` is the step of the instance with `Config.params`. -/
theorem stepWith_params (s : State) : stepWith Config.params s = step s := by
  have h : execWith Config.params = exec := by funext i s; simp
  rw [stepWith, step, h]

/-- Everything a step can do. -/
theorem step_cases {s t : State} (h : step s = .next t) :
    (s.inbox = [] ∧ t = s) ∨
    (∃ rest, s.inbox = .powerOn :: rest ∧ t = State.powerOn { s with inbox := rest }) ∨
    (∃ w rest, s.inbox = .command w :: rest ∧
      ((∃ i, decode w = .ok i ∧ exec i { s with inbox := rest } = .next t) ∨
       (∃ e, decode w = .error e ∧ t = State.illegal { s with inbox := rest }))) := by
  rw [← stepWith_params] at h
  simpa using stepWith_cases h

/-- A run of a machine goes on from the state its first step answers. -/
theorem run_succ_of_next (M : Host.Core) (n : Nat) (s t : M.State) (h : M.step s = .next t) :
    M.run (n + 1) s = M.run n t := by
  simp [Host.Core.run, h]

/-- A run of a machine stops at a fault. -/
theorem run_succ_of_fault (M : Host.Core) (n : Nat) (s : M.State) (f : M.Fault) (h : M.step s = .fault f) :
    M.run (n + 1) s = .fault f := by
  simp [Host.Core.run, h]

/-- A run of this block goes on from the state its first step answers. -/
theorem core_run_succ_of_next {s t : State} {n : Nat} (h : step s = .next t) :
    Host.Core.run Sys2Proof.core (n + 1) s = Host.Core.run Sys2Proof.core n t :=
  run_succ_of_next Sys2Proof.core n s t h

/-- A run of this block stops at a fault. -/
theorem core_run_succ_of_fault {s : State} {n : Nat} {f : Fault} (h : step s = .fault f) :
    Host.Core.run Sys2Proof.core (n + 1) s = .fault f :=
  run_succ_of_fault Sys2Proof.core n s f h

/-- No steps leave the state. -/
theorem core_run_zero (s : State) : Host.Core.run Sys2Proof.core 0 s = .next s := rfl

end Sys2Proof.Machine
end

