-- ==== Sys2Proof/Laws/Stream.lean ====
section
/-! SUPPORT. Runs of commands: one after another, over noise, and over the payload and checksum of a frame. -/

namespace Sys2Proof.Machine

variable {M : Type} {cfg : Params M} {s t : State M}

/-- A run goes on from where its first part ends. -/
theorem runCommands_append {xs ys : List Instr} (h : runCommands cfg xs s = .next t) :
    runCommands cfg (xs ++ ys) s = runCommands cfg ys t := by
  induction xs generalizing s with
  | nil => cases h; rfl
  | cons x xs ih =>
    simp only [List.cons_append, runCommands] at h ⊢
    cases hx : execWith cfg x s with
    | next u => rw [hx] at h; exact ih h
    | fault f => rw [hx] at h; cases h
    | refused r => rw [hx] at h; cases h

@[simp] theorem prsBytes_append (xs ys : Bytes) : prsBytes (xs ++ ys) = prsBytes xs ++ prsBytes ys := by
  simp [prsBytes]

@[simp] theorem runCommands_prsBytes_nil : runCommands cfg (prsBytes []) s = .next s := rfl

/-- A wire byte the state's rule takes, then the bytes after it. -/
theorem runCommands_prsBytes_cons {b : Byte} {bs : Bytes} {p : Parser} {r : Response M}
    (h : s.prs.consume cfg b = .ok (p, r)) :
    runCommands cfg (prsBytes (b :: bs)) s = runCommands cfg (prsBytes bs) ((s.setParser p).respond r) := by
  simp [prsBytes, runCommands, execWith_prsByte_of_consume h]

/-- The rest of a payload, byte for byte (R76): it is stored after what is there, each byte is answered `NONE`, and
the parser waits for the checksum. -/
theorem runCommands_payload {len : Byte} {rest : Bytes} (hne : rest ≠ []) (hst : s.prs.st = .awaitPayload)
    (hlen : s.prs.len = some len) (hcnt : s.prs.cnt.toNat + rest.length = len.toNat)
    (hbuf : s.prs.buf.Pairwise (fun x y => x.1 < y.1)) :
    ∃ buf : Memory, buf.firstBytes len.toNat = s.prs.buf.firstBytes s.prs.cnt.toNat ++ rest ∧
      runCommands cfg (prsBytes rest) s = .next { s with
        prs := { s.prs with st := .awaitChecksum, cnt := len, buf := buf }
        outbox := s.outbox ++ List.replicate rest.length .none } := by
  induction rest generalizing s with
  | nil => exact absurd rfl hne
  | cons b bs ih =>
    simp only [List.length_cons] at hcnt
    have hll := len.isLt
    have hi : s.prs.storeIndex < Config.payloadCapacity := by
      unfold Parser.storeIndex Config.payloadCapacity; omega
    have hc : (s.prs.cnt + 1).toNat = s.prs.cnt.toNat + 1 := by
      rw [BitVec.toNat_add]; simp; omega
    have hs := Parser.consume_payload (cfg := cfg) (b := b) hst
    rw [Parser.onPayload_ok b hi, silently_ok] at hs
    rw [runCommands_prsBytes_cons hs]
    have hfb := Memory.firstBytes_write s.prs.cnt.toNat b hbuf
    by_cases hbs : bs = []
    · subst hbs
      have e : s.prs.cnt + 1 = len := BitVec.eq_of_toNat_eq (by rw [hc]; simpa using hcnt)
      refine ⟨s.prs.buf.write s.prs.storeIndex b, ?_, ?_⟩
      · rw [← e, hc]; exact hfb
      · rw [e, if_pos hlen.symm]; simp [State.respond, State.setParser]
    · have e : some (s.prs.cnt + 1) ≠ s.prs.len := by
        rw [hlen]
        intro e
        have := congrArg BitVec.toNat (Option.some.inj e)
        have : bs.length ≠ 0 := by simpa using hbs
        omega
      rw [if_neg e]
      obtain ⟨buf, h1, h2⟩ := ih (s := (s.setParser { s.prs with
          buf := s.prs.buf.write s.prs.storeIndex b, cnt := s.prs.cnt + 1, st := s.prs.st }).respond .none)
        hbs hst hlen (by simp only [State.respond_prs, State.setParser_prs]; omega) (Memory.write_rising _ _ hbuf)
      refine ⟨buf, ?_, ?_⟩
      · rw [h1]
        show (s.prs.buf.write s.prs.cnt.toNat b).firstBytes (s.prs.cnt + 1).toNat ++ bs = _
        rw [hc, hfb]; simp
      · rw [h2]; simp [State.respond, State.setParser, List.replicate_succ]

/-- The end of a frame (R76 to R84): from the state after the last message-ID byte, the payload and the two checksum
bytes give the frame that assembly makes of them, and clear the record. -/
theorem runCommands_frameEnd {payload : Bytes} {lo hi : Byte} {len : Byte} {f : FrameRecord M}
    (hlen : len.toNat = payload.length)
    (hst : s.prs.st = if len = 0 then .awaitChecksum else .awaitPayload) (hl : s.prs.len = some len)
    (hcnt : s.prs.cnt = 0) (hbuf : s.prs.buf = []) (hlo : s.prs.cklo = none)
    (hf : ∀ buf : Memory, buf.firstBytes payload.length = payload →
      ({ s.prs with st := .awaitChecksum, cnt := len, buf := buf, cklo := some lo, ckhi := some hi } : Parser).assemble
        cfg.registries = some f) :
    runCommands cfg (prsBytes (payload ++ [lo, hi])) s = .next { s with
      prs := Parser.reset
      outbox := s.outbox ++ List.replicate (payload.length + 1) .none ++ [.frame f] } := by
  obtain ⟨buf, h1, h2⟩ : ∃ buf : Memory, buf.firstBytes payload.length = payload ∧
      runCommands cfg (prsBytes payload) s = .next { s with
        prs := { s.prs with st := .awaitChecksum, cnt := len, buf := buf }
        outbox := s.outbox ++ List.replicate payload.length .none } := by
    by_cases hp : payload = []
    · subst hp
      have e : len = 0 := BitVec.eq_of_toNat_eq (by simpa using hlen)
      subst e
      refine ⟨[], rfl, ?_⟩
      rw [if_pos rfl] at hst
      rw [← hst, ← hcnt, ← hbuf]; simp
    · have hz : len ≠ 0 := by
        rintro rfl; exact hp (List.eq_nil_of_length_eq_zero (by simpa using hlen.symm))
      rw [if_neg hz] at hst
      obtain ⟨buf, h1, h2⟩ := runCommands_payload (cfg := cfg) hp hst hl (by rw [hcnt]; simpa using hlen.symm)
        (by rw [hbuf]; exact .nil)
      exact ⟨buf, by rw [hlen, hcnt] at h1; simpa using h1, h2⟩
  rw [prsBytes_append, runCommands_append h2]
  have c1 := Parser.consume_checksum (p := { s.prs with st := .awaitChecksum, cnt := len, buf := buf })
    (cfg := cfg) (b := lo) rfl
  rw [Parser.onChecksum_first (by exact hlo)] at c1
  rw [runCommands_prsBytes_cons c1]
  have c2 := Parser.consume_checksum
    (p := { s.prs with st := .awaitChecksum, cnt := len, buf := buf, cklo := some lo }) (cfg := cfg) (b := hi) rfl
  rw [Parser.onChecksum_second (lo := lo) rfl, hf buf h1] at c2
  rw [runCommands_prsBytes_cons c2]
  simp [State.respond, State.setParser, List.replicate_succ']

@[simp] theorem framesOf_append (xs ys : List (Response M)) : framesOf (xs ++ ys) = framesOf xs ++ framesOf ys := by
  induction xs with
  | nil => rfl
  | cons x xs ih => cases x <;> simp [framesOf, ih]

@[simp] theorem framesOf_replicate_none (n : Nat) : framesOf (M := M) (List.replicate n .none) = [] := by
  induction n with
  | zero => rfl
  | succ n ih => simpa [List.replicate_succ, framesOf] using ih

/-- The responses of a run that added these. -/
@[simp] theorem State.responsesSince_append (s t : State M) (rs : List (Response M)) (h : t.outbox = s.outbox ++ rs) :
    s.responsesSince t = rs := by
  simp [State.responsesSince, h]

end Sys2Proof.Machine
end

