-- ==== Sys2Proof/Tests/Slice0.lean ====
section
/-! SUPPORT. Small tests with values from spec/95_test_vectors.md and the rules' own examples, and for every statement
with hypotheses a state and operands that meet them together. -/

namespace Sys2Proof.Tests

open Sys2Proof.Machine

variable {M : Type}

/-! Helpers. -/

/-- The next state of an outcome, if it is one. -/
def nextOf : Host.Outcome (State M) Fault Refusal → Option (State M)
  | .next s => some s
  | .fault _ => none
  | .refused _ => none

/-- Right after reset, with this in `ACC`. -/
def withAcc (v : U16) : State := { State.reset with acc := v }

/-- Right after reset, with these events waiting. -/
def withInbox (events : List HostEvent) : State := { State.reset with inbox := events }

/-- Right after reset, with this parser record. -/
def withParser (p : Parser) : State := { State.reset with prs := p }

/-- A record that waits in this state, with nothing filled. -/
def waiting (st : ParserState) : State := withParser { Parser.reset with st := st }

/-- A block whose messages are byte sequences, right after power-on but with this parser record. -/
def blockWith (p : Parser) : State Bytes := { (State.atPowerOn : State Bytes) with prs := p }

/-- REG_HB of 95_test_vectors.md section 0; its message `HB(P)` is the payload itself. -/
def heartbeat : SchemaEntry Bytes where
  msgId := 0
  decode := fun payload _ => payload
  crcExtra := 0x32
  nel := 9

/-- REG_Z of 95_test_vectors.md section 0. -/
def zeroExtra : SchemaEntry Bytes := { heartbeat with crcExtra := 0x00 }

/-- A block built with these registries. -/
def built (regs : List (Registry M)) : Params M := ⟨regs, .skip⟩

/-- The payload of V-L1-1. -/
def samplePayload : Bytes := [0x00, 0x00, 0x00, 0x00, 0x13, 0x0A, 0x00, 0x02, 0x00]

/-- The record of V-L1-1 just before its last byte. -/
def beforeLastByte : Parser where
  st := .awaitChecksum
  ver := some .v1
  len := some 0x09
  incompat := none
  compat := none
  seq := some 0x00
  sys := some 0x4F
  comp := some 0x4C
  mid := [0x00]
  buf := [(4, 0x13), (5, 0x0A), (7, 0x02)]
  cnt := 9
  hcrc := 0xC29B
  cklo := some 0xE6
  ckhi := none

/-- A v1 record with one of its two payload bytes stored. -/
def inPayload : Parser where
  st := .awaitPayload
  ver := some .v1
  len := some 0x02
  incompat := none
  compat := none
  seq := some 0x00
  sys := some 0x01
  comp := some 0x01
  mid := [0x00]
  buf := [(0, 0x55)]
  cnt := 1
  hcrc := fold crcSeed [0x02, 0x00, 0x01, 0x01, 0x00]
  cklo := none
  ckhi := none

/-- A v2 record of length 0 just before its last byte. -/
def beforeLastByteV2 : Parser where
  st := .awaitChecksum
  ver := some .v2
  len := some 0x00
  incompat := some 0x00
  compat := some 0x00
  seq := some 0x09
  sys := some 0x01
  comp := some 0x01
  mid := [0x00, 0x00, 0x00]
  buf := []
  cnt := 0
  hcrc := 0x7C94
  cklo := some 0x40
  ckhi := none

/-! What the assembler refuses (WellFormed.lean). -/

theorem test_ill_formed_crc16_too_wide : (SourceLine.command .crcStep [0x10000, 0x00]).wellFormed = false := by decide

theorem test_ill_formed_byte_too_wide : (SourceLine.command .crcStep [0xFFFF, 0x100]).wellFormed = false := by decide

theorem test_ill_formed_operand_of_a_command_that_takes_none :
    (SourceLine.command .crcInit [0]).wellFormed = false := by decide

theorem test_ill_formed_second_operand_of_crc_load :
    (SourceLine.command .crcLoad [0, 0]).wellFormed = false := by decide

theorem test_ill_formed_wire_byte : (SourceLine.prsBytes [0x00, 0x100]).wellFormed = false := by decide

theorem test_ill_formed_code_point : (SourceLine.crcAccs [0x31, 0x100]).wellFormed = false := by decide

theorem test_ill_formed_lines_have_no_words :
    assembleLine (.command .crcInit [0]) = none ∧ assembleLine (.prsBytes [0x100]) = none ∧
      assembleLine (.crcAccs [0x100]) = none := by decide

theorem test_well_formed_bounds :
    (SourceLine.command .crcStep [0xFFFF, 0xFF]).wellFormed = true ∧
      (SourceLine.crcAccs [0xFF]).wellFormed = true ∧ (SourceLine.prsBytes []).wellFormed = true := by decide

/-! Words written out field by field: OPC, IMM16, IMM8 (R36, R37), with the vectors of 95_test_vectors.md. -/

theorem test_decode_crc_step :
    decode (0b00000001#8 ++ 0b0001001000110100#16 ++ 0b01010110#8) = .ok (.crcStep 0x1234 0x56) := rfl

theorem test_decode_crc_init : decode (0b00000010#8 ++ 0b0000000000000000#16 ++ 0b00000000#8) = .ok .crcInit := rfl

theorem test_decode_crc_load :
    decode (0b00000011#8 ++ 0b1100001010011011#16 ++ 0b00000000#8) = .ok (.crcLoad 0xC29B) := rfl

theorem test_decode_crc_acc :
    decode (0b00000100#8 ++ 0b0000000000000000#16 ++ 0b00001001#8) = .ok (.crcAcc 0x09) := rfl

theorem test_decode_crc_read : decode (0b00000101#8 ++ 0b0000000000000000#16 ++ 0b00000000#8) = .ok .crcRead := rfl

theorem test_decode_prs_byte :
    decode (0b00010000#8 ++ 0b0000000000000000#16 ++ 0b11111110#8) = .ok (.prsByte 0xFE) := rfl

theorem test_decode_prs_reset :
    decode (0b00010001#8 ++ 0b0000000000000000#16 ++ 0b00000000#8) = .ok .prsReset := rfl

theorem test_decode_unassigned_opcodes :
    decode 0x00000000 = .error .unassignedOpcode ∧ decode 0x06000000 = .error .unassignedOpcode ∧
      decode 0x0F000000 = .error .unassignedOpcode ∧ decode 0x12000000 = .error .unassignedOpcode ∧
      decode 0xFFFFFFFF = .error .unassignedOpcode :=
  ⟨rfl, rfl, rfl, rfl, rfl⟩

theorem test_decode_nonzero_must_be_zero :
    decode 0x02000001 = .error .nonzeroMustBeZero ∧ decode 0x03C29B01 = .error .nonzeroMustBeZero ∧
      decode 0x04000109 = .error .nonzeroMustBeZero ∧ decode 0x05FFFF00 = .error .nonzeroMustBeZero ∧
      decode 0x10010000 = .error .nonzeroMustBeZero ∧ decode 0x11000001 = .error .nonzeroMustBeZero :=
  ⟨rfl, rfl, rfl, rfl, rfl, rfl⟩

theorem test_decode_table_word : decodeTableWord 32 0x03C29B00 = some (.crcLoad 0xC29B) := by decide

/-! The checksum (R56 to R59, 95_test_vectors.md). -/

theorem test_acc_vectors :
    acc 0xFFFF 0x00 = 0x0F87 ∧ acc 0xFFFF 0xFF = 0x00FF ∧ acc 0x0000 0x01 = 0x1189 ∧ acc 0x1234 0x56 = 0x4006 ∧
      acc 0x0000 0xFF = 0x0F78 ∧ acc 0xFFFF 0xFE = 0x1176 := by decide

theorem test_bit_serial_vectors : accBitSerial 0x1234 0x56 = 0x4006 ∧ accBitSerial 0xFFFF 0x31 = 0x2F8D := by decide

theorem test_check_value : fold 0xFFFF [0x31, 0x32, 0x33, 0x34, 0x35, 0x36, 0x37, 0x38, 0x39] = 0x6F91 := by decide

/-- V-C-22, with both values of `NEL`. -/
theorem test_frame_checksum :
    frameChecksum [0x09, 0x00, 0x4F, 0x4C, 0x00] samplePayload 9 0x32 = 0x71E6 ∧
      frameChecksum [0x09, 0x00, 0x4F, 0x4C, 0x00] samplePayload 5 0x32 = 0x9AA0 := by decide

/-! One step of each command. -/

/-- V-C-5. -/
theorem test_crc_step :
    nextOf (exec (.crcStep 0x1234 0x56) (withAcc 0xBEEF)) =
      some { withAcc 0xBEEF with outbox := [.value 0x4006] } := by decide

/-- V-C-10. -/
theorem test_crc_init :
    nextOf (exec .crcInit (withAcc 0x1234)) = some { withAcc 0xFFFF with outbox := [.none] } := by decide

/-- V-C-12. -/
theorem test_crc_load :
    nextOf (exec (.crcLoad 0xC29B) State.reset) = some { withAcc 0xC29B with outbox := [.none] } := by decide

/-- V-C-14. -/
theorem test_crc_acc :
    nextOf (exec (.crcAcc 0x09) State.reset) = some { withAcc 0x9246 with outbox := [.value 0x9246] } := by decide

/-- V-C-17. -/
theorem test_crc_read :
    nextOf (exec .crcRead (withAcc 0x7160)) = some { withAcc 0x7160 with outbox := [.value 0x7160] } := by decide

/-- V-F-13: a marker is not folded, and noise leaves the reset record. -/
theorem test_prs_byte_marker :
    nextOf (exec (.prsByte 0xFD) State.reset) =
      some { withParser { Parser.reset with ver := some .v2, st := .awaitLength } with outbox := [.none] } ∧
    nextOf (exec (.prsByte 0xFC) State.reset) = some { State.reset with outbox := [.none] } := by decide

/-- V-L1-1 and V-L1-2: the last byte, with the registry of the vectors. -/
theorem test_prs_byte_last :
    nextOf (execWith (built [schemaRegistry [heartbeat]]) (.prsByte 0x71) (blockWith beforeLastByte)) =
      some { blockWith Parser.reset with outbox :=
        [.frame (.v1 0x00 0x4F 0x4C 0 (.known samplePayload) 0x71E6 0x71E6)] } ∧
    nextOf (execWith (built [schemaRegistry [heartbeat]]) (.prsByte 0x70) (blockWith beforeLastByte)) =
      some { blockWith Parser.reset with outbox :=
        [.frame (.v1 0x00 0x4F 0x4C 0 (.known samplePayload) 0x70E6 0x71E6)] } := by decide

theorem test_valid_and_invalid :
    (FrameRecord.v1 0x00 0x4F 0x4C 0 (.known samplePayload) (checksumField 0xE6 0x71) 0x71E6).valid = true ∧
      (FrameRecord.v1 0x00 0x4F 0x4C 0 (.known samplePayload) (checksumField 0xE6 0x70) 0x71E6).valid = false := by
  decide

/-- V-L1-4: no registry recognises the frame. -/
theorem test_unrecognised_frame :
    nextOf (execWith (built []) (.prsByte 0x71) (blockWith beforeLastByte)) =
      some { blockWith Parser.reset with outbox :=
        [.frame (.v1 0x00 0x4F 0x4C 0 (.unsupported samplePayload) 0x71E6 0xC29B)] } := by decide

/-- V-F-7: the first registry that answers counts. -/
theorem test_registry_order :
    (recognise [schemaRegistry [heartbeat], schemaRegistry [zeroExtra]] 0 samplePayload 9 0xC29B).2 = 0x71E6 ∧
      (recognise [schemaRegistry [zeroExtra], schemaRegistry [heartbeat]] 0 samplePayload 9 0xC29B).2 = 0x6377 := by
  decide

/-- V-F-9: payload bytes at `NEL` and above are not folded. -/
theorem test_extension_bytes :
    (recognise [schemaRegistry [heartbeat]] 0 [0x01, 0x00, 0x00, 0x00, 0x13, 0x0A, 0x00, 0x02, 0x03, 0xAA, 0xBB] 11
      0xF87C).2 = 0x00F9 := by decide

/-- V-F-3: a v2 frame of length 0 leaves AWAIT_MESSAGE_ID for AWAIT_CHECKSUM. -/
theorem test_v2_zero_length :
    nextOf (exec (.prsByte 0x00) (withParser { beforeLastByteV2 with
      st := .awaitMessageId, mid := [0x00, 0x00], cklo := none, hcrc := 0xFFFF })) =
      some { withParser { beforeLastByteV2 with cklo := none, hcrc := 0x0F87 } with outbox := [.none] } := by decide

/-- The same byte in a block built with `V2_ZERO_LENGTH = FAULT` stops by name (I3). -/
theorem test_v2_zero_length_fault :
    execWith ⟨[], .fault⟩ (.prsByte 0x00) (blockWith { beforeLastByteV2 with
      st := .awaitMessageId, mid := [0x00, 0x00], cklo := none }) = .fault .v2ZeroLength := by rfl

/-- A payload byte goes to the cursor; a zero byte is not listed. -/
theorem test_payload_byte :
    (nextOf (exec (.prsByte 0xFE) (withParser inPayload))).map (fun s => (s.prs.buf, s.prs.cnt, s.prs.st)) =
      some ([(0, 0x55), (1, 0xFE)], 2, .awaitChecksum) ∧
    (nextOf (exec (.prsByte 0x00) (withParser inPayload))).map (fun s => s.prs.buf) = some [(0, 0x55)] := by decide

/-- V-F-12: `PRS.RESET` leaves `ACC`. -/
theorem test_prs_reset :
    nextOf (exec .prsReset { withParser inPayload with acc := 0xBEEF }) =
      some { withAcc 0xBEEF with outbox := [.none] } := by decide

/-- V-C-11 and V-F-8: an illegal word is answered and changes nothing. -/
theorem test_illegal_words :
    nextOf (step ((withAcc 0x1234).withFetchWord 32 0x02000001)) =
      some { withAcc 0x1234 with outbox := [.illegal] } ∧
    nextOf (step (State.reset.withFetchWord 32 0x10010000)) = some { State.reset with outbox := [.illegal] } := by decide

/-- P4: a word on the port is run. -/
theorem test_step_runs_a_word :
    nextOf (step (State.reset.withFetchWord 32 0x03075E00)) =
      some { withAcc 0x075E with outbox := [.none] } := by decide

/-! The serializer and the assembler. -/

/-- The codec of REG_HB: a message is padded with 0x00 to 9 bytes. -/
def sampleCodec : Codec Bytes := ⟨fun p => p ++ List.replicate (9 - p.length) 0x00, fun _ => 0x32, fun _ => 9⟩

/-- V-L1-1: the record serialises to the 17 bytes. -/
theorem test_serialize_v1 :
    serialize sampleCodec (.v1 0x00 0x4F 0x4C 0 (.known samplePayload) 0x71E6 0x71E6) =
      some ([0xFE, 0x09, 0x00, 0x4F, 0x4C, 0x00] ++ samplePayload ++ [0xE6, 0x71]) := by decide

/-- V-L1-5: the trailing zero is trimmed and the checksum is over the trimmed bytes. -/
theorem test_serialize_v2 :
    serialize sampleCodec (.v2 0x00 0x00 0x07 0x4F 0x4C 0 (.known samplePayload) 0 0) =
      some ([0xFD, 0x08, 0x00, 0x00, 0x07, 0x4F, 0x4C, 0x00, 0x00, 0x00] ++ samplePayload.take 8 ++ [0x2F, 0x0A]) := by
  decide

theorem test_trim : trimTrailingZeros [0x00, 0x01, 0x00, 0x00] = [0x00, 0x01] ∧ trimTrailingZeros [0x00] = [] := by
  decide

/-- The example word of R60, from its text. -/
theorem test_assemble_crc_step :
    readLine ['C', 'R', 'C', '.', 'S', 'T', 'E', 'P', ' ', '0', 'x', 'F', 'F', 'F', 'F', ',', ' ', '4', '9'] =
      some (.command .crcStep [0xFFFF, 0x31]) ∧
    assembleLine (.command .crcStep [0xFFFF, 0x31]) = some [0x01FFFF31] := by decide

/-- The first bytes of P1. -/
theorem test_assemble_prs_bytes :
    readLine ['P', 'R', 'S', '.', 'B', 'Y', 'T', 'E', 'S', ' ', '0', 'x', 'F', 'E', ',', '0', 'x', '0', '9'] =
      some (.prsBytes [0xFE, 0x09]) ∧
    assembleLine (.prsBytes [0xFE, 0x09]) = some [0x100000FE, 0x10000009] := by decide

/-- The first characters of P3's string. -/
theorem test_assemble_crc_accs :
    readLine ['C', 'R', 'C', '.', 'A', 'C', 'C', 'S', ' ', '"', '1', '2', '"'] = some (.crcAccs [0x31, 0x32]) ∧
    assembleLine (.crcAccs [0x31, 0x32]) = some [0x04000031, 0x04000032] := by decide

theorem test_no_line : readLine ['C', 'R', 'C', '.', 'R', 'E', 'S', 'E', 'T'] = none := by decide

/-! Witnesses: states and operands that meet the hypotheses of the statements. -/

theorem witness_EveryWordIsOneCommandOrIllegal :
    (0x01FFFF31 : Word) &&& (Instr.crcStep 0 0).maskBits = (Instr.crcStep 0 0).matchBits ∧
      (0x03C29B00 : Word) &&& (Instr.crcLoad 0).maskBits = (Instr.crcLoad 0).matchBits := by decide

/-- Words under each clause of R38, at the smallest and largest value that breaks it. -/
theorem witness_IllegalWordsAnswerIllegalAndChangeNothing :
    ([0x00000000, 0x06000000, 0x0F000000, 0x12000000, 0xFFFFFFFF] : List Word).map decode =
      List.replicate 5 (.error .unassignedOpcode) ∧
    ([0x02000001, 0x02FFFFFF, 0x05000100, 0x110000FF, 0x03000001, 0x030000FF, 0x04000100, 0x04FFFF00, 0x10000100,
      0x10FFFF00] : List Word).map decode = List.replicate 10 (.error .nonzeroMustBeZero) := ⟨rfl, rfl⟩

/-- For every form of line one the assembler takes, with operands at the edge of their fields, and one it refuses. -/
theorem witness_AssembledWordsDecodeToTheLinesCommands :
    assembleLine (.command .crcStep [0xFFFF, 0xFF]) = some [0x01FFFFFF] ∧
    assembleLine (.command .crcInit []) = some [0x02000000] ∧
    assembleLine (.command .crcLoad [0xFFFF]) = some [0x03FFFF00] ∧
    assembleLine (.command .crcAcc [0xFF]) = some [0x040000FF] ∧
    assembleLine (.command .crcRead []) = some [0x05000000] ∧
    assembleLine (.command .prsByte [0xFF]) = some [0x100000FF] ∧
    assembleLine (.command .prsReset []) = some [0x11000000] ∧
    assembleLine (.prsBytes [0x00, 0xFF]) = some [0x10000000, 0x100000FF] ∧
    assembleLine (.crcAccs [0x00, 0xFF]) = some [0x04000000, 0x040000FF] ∧
    assembleLine (.command .crcStep [0xFFFF, 0x100]) = none ∧ assembleLine (.command .crcLoad [0, 0]) = none ∧
    assembleLine (.crcAccs [0xFF, 0x100]) = none := by decide

theorem witness_StepRunsTheDecodedCommand :
    (withInbox [.command 0x02000000]).inbox = .command 0x02000000 :: [] ∧ decode 0x02000000 = .ok .crcInit := ⟨rfl, rfl⟩

theorem witness_OverlapIsRefusedAndIdleKeepsState :
    (withInbox [.overlapping 1 2]).inbox = .overlapping 1 2 :: [] ∧ State.reset.inbox = [] := by decide

theorem witness_PowerOn :
    { withParser inPayload with inbox := [.powerOn] }.inbox = .powerOn :: [] := by decide

theorem witness_EveryCommandGivesOneResponse :
    step (withInbox [.command 0x05000000]) = .next { State.reset with outbox := [.value 0xFFFF] } ∧
      step (withInbox [.command 0x00000000]) = .next { State.reset with outbox := [.illegal] } := ⟨rfl, rfl⟩

theorem witness_WaitingWordsRunInIssueOrder : (withParser inPayload).inbox = [] := by decide

/-- A state in the middle of a frame that meets the invariant, its payload one byte short. -/
theorem witness_Inv_inPayload : (withParser inPayload).Inv where
  idleIsCleared := by decide
  markerKnown := by decide
  flagStatesAreV2 := by decide
  lenFilled := by decide
  incompatFilled := by decide
  compatFilled := by decide
  seqFilled := by decide
  sysFilled := by decide
  compFilled := by decide
  midEmpty := by decide
  midShort := by decide
  midWhole := by decide
  cntZero := by decide
  payloadBound := fun _ => ⟨0x02, rfl, by decide, by decide⟩
  payloadWhole := by decide
  ckloOnlyInChecksum := by decide
  ckhiEmpty := by decide
  headerCrc := by decide
  bufWf := by decide
  bufBelowCnt := by decide

/-- A state just before the last byte of a frame that meets the invariant. -/
theorem witness_Inv_beforeLastByte : (withParser beforeLastByte).Inv where
  idleIsCleared := by decide
  markerKnown := by decide
  flagStatesAreV2 := by decide
  lenFilled := by decide
  incompatFilled := by decide
  compatFilled := by decide
  seqFilled := by decide
  sysFilled := by decide
  compFilled := by decide
  midEmpty := by decide
  midShort := by decide
  midWhole := by decide
  cntZero := by decide
  payloadBound := fun h => by cases h
  payloadWhole := by decide
  ckloOnlyInChecksum := by decide
  ckhiEmpty := by decide
  headerCrc := by decide
  bufWf := by decide
  bufBelowCnt := by decide

theorem witness_NoStepFaultsUnderTheInvariant :
    (withParser inPayload).Inv ∧ (withParser inPayload).hostSerialises :=
  ⟨witness_Inv_inPayload, by intro _ _ _ h; cases h⟩

/-- The invariant, a byte on the port and the state after it. -/
theorem witness_StepKeepsTheInvariant :
    { withParser inPayload with inbox := [.command 0x10000007] }.Inv ∧
      step { withParser inPayload with inbox := [.command 0x10000007] } =
        .next { withParser { inPayload with buf := [(0, 0x55), (1, 0x07)], cnt := 2, st := .awaitChecksum } with
          outbox := [.none] } :=
  ⟨witness_Inv_inPayload, rfl⟩

theorem witness_StepKeepsTheBufferCanonical :
    { withParser inPayload with inbox := [.command 0x10000007] }.bufferWf ∧
      (nextOf (step { withParser inPayload with inbox := [.command 0x10000007] })).isSome = true := by decide

theorem witness_BufferCannotOverflow : inPayload.Inv ∧ inPayload.len = some 0x02 ∧ inPayload.st = .awaitPayload :=
  ⟨witness_Inv_inPayload, rfl, rfl⟩

theorem witness_NoWireInputMakesTheBlockFail : (withParser beforeLastByte).Inv := witness_Inv_beforeLastByte

theorem witness_DefensiveFailureIsUnreachable :
    (withParser beforeLastByte).Inv ∧ beforeLastByte.st = .awaitChecksum ∧ beforeLastByte.cklo ≠ none :=
  ⟨witness_Inv_beforeLastByte, rfl, by decide⟩

theorem witness_ExtensionBytesDoNotEnterTheChecksum : 9 ≤ 9 ∧ samplePayload.length ≤ 9 := by decide

/-- Words with the match bits of R60, R62 and R63, and words that break the "must be 0" fields of R61 to R64, R87. -/
theorem witness_CrcCommandWords :
    (0x01FFFFFF : Word) &&& 0xFF000000 = 0x01000000 ∧ (0x03FFFF00 : Word) &&& 0xFF0000FF = 0x03000000 ∧
    (0x040000FF : Word) &&& 0xFFFFFF00 = 0x04000000 ∧
    ((0x02000100 : Word).extractLsb' 24 8 = 0x02 ∧ (0x02000100 : Word).extractLsb' 8 16 ≠ 0) ∧
    ((0x02000001 : Word).extractLsb' 24 8 = 0x02 ∧ (0x02000001 : Word).extractLsb' 0 8 ≠ 0) ∧
    ((0x03000001 : Word).extractLsb' 24 8 = 0x03 ∧ (0x03000001 : Word).extractLsb' 0 8 ≠ 0) ∧
    ((0x04000100 : Word).extractLsb' 24 8 = 0x04 ∧ (0x04000100 : Word).extractLsb' 8 16 ≠ 0) ∧
    ((0x05FFFF00 : Word).extractLsb' 24 8 = 0x05 ∧ (0x05FFFF00 : Word).extractLsb' 8 16 ≠ 0) ∧
    ((0x050000FF : Word).extractLsb' 24 8 = 0x05 ∧ (0x050000FF : Word).extractLsb' 0 8 ≠ 0) ∧
    ((0x11800000 : Word).extractLsb' 24 8 = 0x11 ∧ (0x11800000 : Word).extractLsb' 8 16 ≠ 0) ∧
    ((0x11000080 : Word).extractLsb' 24 8 = 0x11 ∧ (0x11000080 : Word).extractLsb' 0 8 ≠ 0) := by decide

/-- A word that makes each clause of the illegal-word statements answer `ILLEGAL`. -/
theorem witness_AnswersIllegal : AnswersIllegal 0x02000001 ∧ AnswersIllegal 0x11000080 :=
  ⟨fun s rest h => by simp only [step, State.takeEvent, h]; rfl,
   fun s rest h => by simp only [step, State.takeEvent, h]; rfl⟩

theorem witness_StringAccumulateFoldsEveryCodePoint : ([] : Bytes) = [] ∧ ([0xFF] : Bytes) ≠ [] := by decide

/-- A state for each of the statements about one parser state. -/
theorem witness_parserStates :
    (waiting .awaitStart).prs.st = .awaitStart ∧ (waiting .awaitLength).prs.st = .awaitLength ∧
    (waiting .awaitIncompatFlags).prs.st = .awaitIncompatFlags ∧
    (waiting .awaitCompatFlags).prs.st = .awaitCompatFlags ∧ (waiting .awaitSequence).prs.st = .awaitSequence ∧
    (waiting .awaitSystemId).prs.st = .awaitSystemId ∧ (waiting .awaitComponentId).prs.st = .awaitComponentId ∧
    (waiting .awaitMessageId).prs.st = .awaitMessageId := by decide

/-- The first and the last index a payload byte can go to, and the one past them. -/
theorem witness_PayloadByteIsStoredAtTheCursor :
    ({ inPayload with cnt := 0 }.st = .awaitPayload ∧ (0 : Byte) ≠ 255) ∧
    ({ inPayload with cnt := 254 }.st = .awaitPayload ∧ (254 : Byte) ≠ 255) ∧
    { inPayload with cnt := 255 }.st = .awaitPayload := by decide

/-- The last message-ID byte of an empty v2 frame, and of an empty v1 frame. -/
theorem witness_CautiousParameterStopsOnEmptyV2Frames :
    (⟨[], .fault⟩ : Params Bytes).v2ZeroLength = .fault ∧
    { beforeLastByteV2 with st := .awaitMessageId, mid := [0x00, 0x00] }.len = some 0 ∧
    { beforeLastByteV2 with st := .awaitMessageId, mid := [0x00, 0x00] }.mid.length = 2 ∧
    (waiting .awaitMessageId).prs.ver ≠ some .v2 := by decide

theorem witness_FirstChecksumByteIsStored :
    (waiting .awaitChecksum).prs.st = .awaitChecksum ∧ (waiting .awaitChecksum).prs.cklo = none := by decide

theorem witness_SecondChecksumByteEmitsTheV1Frame :
    beforeLastByte.st = .awaitChecksum ∧ beforeLastByte.ver = some .v1 ∧ beforeLastByte.len = some 0x09 ∧
    beforeLastByte.seq = some 0x00 ∧ beforeLastByte.sys = some 0x4F ∧ beforeLastByte.comp = some 0x4C ∧
    beforeLastByte.mid = [0x00] ∧ beforeLastByte.cklo = some 0xE6 := by decide

theorem witness_SecondChecksumByteEmitsTheV2Frame :
    beforeLastByteV2.st = .awaitChecksum ∧ beforeLastByteV2.ver = some .v2 ∧ beforeLastByteV2.len = some 0x00 ∧
    beforeLastByteV2.incompat = some 0x00 ∧ beforeLastByteV2.compat = some 0x00 ∧ beforeLastByteV2.seq = some 0x09 ∧
    beforeLastByteV2.sys = some 0x01 ∧ beforeLastByteV2.comp = some 0x01 ∧
    beforeLastByteV2.mid = [0x00, 0x00, 0x00] ∧ beforeLastByteV2.cklo = some 0x40 := by decide

/-- A record that misses a field, and one that misses none. -/
theorem witness_MissingFieldGivesNoFrameAndClears :
    { beforeLastByte with sys := none }.st = .awaitChecksum ∧ { beforeLastByte with sys := none }.cklo = some 0xE6 ∧
    nextOf (exec (.prsByte 0x71) (withParser { beforeLastByte with sys := none })) =
      some { State.reset with outbox := [.none] } ∧ beforeLastByte.st = .awaitChecksum := by decide

theorem witness_FirstAnsweringRegistryWins :
    (∀ r ∈ ([schemaRegistry []] : List (Registry Bytes)), r 0 samplePayload 9 0xC29B = none) ∧
      (schemaRegistry [heartbeat] 0 samplePayload 9 0xC29B).isSome = true := by
  refine ⟨fun r hr => ?_, rfl⟩
  rw [List.mem_singleton.mp hr]
  rfl

/-- V-F-2: a record with message ID 0x42 and the vectors' registry, which knows another ID. -/
theorem witness_UnrecognisedFrameReportsTheHeaderCrc :
    let p := { beforeLastByte with mid := [0x42], ckhi := some 0x71 }
    p.len = some 0x09 ∧ p.messageId = some 0x42 ∧
    (∀ r ∈ [schemaRegistry [heartbeat]], r 0x42 ((List.range 9).map p.buf.read) 0x09 p.hcrc = none) ∧
    (schemaRegistry [heartbeat] 0 samplePayload 0x09 p.hcrc).isSome = true ∧
    (p.assemble [schemaRegistry [heartbeat]]).isSome = true := by
  refine ⟨rfl, rfl, fun r hr => ?_, rfl, rfl⟩
  rw [List.mem_singleton.mp hr]
  rfl

theorem witness_SchemaRegistryContinuesTheHeaderChecksum :
    samplePayload.length ≤ 255 ∧ (List.replicate 255 (0x01 : Byte)).length ≤ 255 ∧
      (∀ e ∈ [heartbeat], e.msgId ≠ 7) ∧ heartbeat.msgId = 0 :=
  ⟨by decide, Nat.le_of_eq List.length_replicate, by decide, rfl⟩

/-- A payload byte, a record clear and a command that leaves the buffer, each answering a next state. -/
theorem witness_BufferBytesChangeOnlyWhereStored :
    (withParser inPayload).bufferWf ∧ (nextOf (exec (.prsByte 0x07) (withParser inPayload))).isSome = true ∧
    (nextOf (exec .prsReset (withParser inPayload))).isSome = true ∧
    (nextOf (exec .crcRead (withParser inPayload))).isSome = true := by decide

theorem witness_UnitsShareNoState :
    (nextOf (exec (.prsByte 0x07) (withParser inPayload))).isSome = true ∧
    (nextOf (exec (.crcAcc 0x07) (withParser inPayload))).isSome = true := by decide

theorem witness_FramesComeOnlyFromTheSecondChecksumByte :
    exec (.prsByte 0x71) (withParser beforeLastByte) = .next { State.reset with outbox :=
      (withParser beforeLastByte).outbox ++ [.frame (.v1 0x00 0x4F 0x4C 0
        (recognise Config.registries 0 samplePayload 9 0xC29B).1 0x71E6
        (recognise Config.registries 0 samplePayload 9 0xC29B).2)] } := rfl

theorem witness_FixedWritesAreIdempotent :
    (∀ b, Instr.prsReset ≠ .crcAcc b) ∧ (∀ b, Instr.prsReset ≠ .prsByte b) ∧
    nextOf (exec .prsReset (withParser inPayload)) = some { State.reset with outbox := [.none] } ∧
    (nextOf (exec .prsReset { State.reset with outbox := [.none] })).isSome = true :=
  ⟨nofun, nofun, by decide, by decide⟩

/-- After the flag states: a byte that keeps the frame open, and the byte that ends it. -/
theorem witness_FlagBitsAreNotInterpreted :
    beforeLastByteV2.incompat = some 0x00 ∧ beforeLastByteV2.compat = some 0x00 ∧
    beforeLastByteV2.st ≠ .awaitIncompatFlags ∧ beforeLastByteV2.st ≠ .awaitCompatFlags ∧
    { beforeLastByteV2 with cklo := none }.consume (built ([] : List (Registry Bytes))) 0x94 =
      .ok ({ beforeLastByteV2 with cklo := some 0x94 }, .none) ∧
    { beforeLastByteV2 with cklo := some 0x94 } ≠ Parser.reset ∧
    { beforeLastByteV2 with cklo := some 0x94 }.consume (built ([] : List (Registry Bytes))) 0x7C =
      .ok (Parser.reset, .frame (.v2 0x00 0x00 0x09 0x01 0x01 0 (.unsupported []) 0x7C94 0x7C94)) :=
  ⟨rfl, rfl, by decide, by decide, rfl, by decide, rfl⟩

theorem witness_InstancesAreIndependent :
    let bank : Bank Msg := [⟨built [], withInbox [.command 0x02000000]⟩, ⟨built [], withParser inPayload⟩]
    bank[0]? = some ⟨built [], withInbox [.command 0x02000000]⟩ ∧
      bank.stepAt 0 = .next [⟨built [], { State.reset with outbox := [.none] }⟩, ⟨built [], withParser inPayload⟩] :=
  ⟨rfl, rfl⟩

theorem witness_NoiseBeforeAMarkerChangesNothing :
    State.reset.prs.st = .awaitStart ∧ ∀ b ∈ ([0x00, 0x55, 0xFC, 0xFF] : Bytes), b ≠ 0xFE ∧ b ≠ 0xFD := by decide

/-- The shortest and the longest payload, from reset. -/
theorem witness_FrameBytesGiveOneFrame :
    State.reset.prs = Parser.reset ∧ ([] : Bytes).length ≤ 255 ∧ (List.replicate 255 (0xFE : Byte)).length ≤ 255 ∧
      (built ([] : List (Registry Bytes))).v2ZeroLength = .skip :=
  ⟨rfl, by decide, Nat.le_of_eq List.length_replicate, rfl⟩

/-- V-L1-1 and, after the noise of V-L1-3, the empty v2 frame of V-F-3. -/
theorem witness_TwoFramesAcrossNoiseGiveTwoFrames :
    (blockWith Parser.reset).prs = Parser.reset ∧
    IsWireFrame .skip ([0xFE, 0x09, 0x00, 0x4F, 0x4C, 0x00] ++ samplePayload ++ [0xE6, 0x71]) ∧
    IsWireFrame .skip [0xFD, 0x00, 0x00, 0x00, 0x09, 0x01, 0x01, 0x00, 0x00, 0x00, 0x40, 0xC0] ∧
    ∀ b ∈ ([0xAA, 0xBB] : Bytes), b ≠ 0xFE ∧ b ≠ 0xFD :=
  ⟨rfl, .inl ⟨0x00, 0x4F, 0x4C, 0x00, 0xE6, 0x71, samplePayload, by decide, rfl⟩,
    .inr ⟨0x00, 0x00, 0x09, 0x01, 0x01, 0x00, 0x00, 0x00, 0x40, 0xC0, [], by decide, .inl rfl, rfl⟩, by decide⟩

/-- A step that emits a frame with a known message, one that faults and one that is refused. -/
theorem witness_MessagesAreOnlyPassedOn :
    (nextOf (stepWith (built [schemaRegistry [heartbeat]])
      { blockWith beforeLastByte with inbox := [.command 0x10000071] })).map (·.outbox) =
        some [.frame (.v1 0x00 0x4F 0x4C 0 (.known samplePayload) 0x71E6 0x71E6)] ∧
    stepWith (built []) { blockWith { inPayload with cnt := 255 } with inbox := [.command 0x10000000] } =
      .fault .bufferIndexAbsent ∧
    stepWith (built []) { blockWith inPayload with inbox := [.overlapping 1 2] } = .refused .overlappingIssue :=
  ⟨by decide, rfl, rfl⟩

/-- V-L1-1 meets the conditions of R55. -/
theorem witness_V1FrameRoundTrips :
    State.reset.prs = Parser.reset ∧ samplePayload.length ≤ 255 ∧
    queryRegistries (messageIdV1 0) samplePayload (lengthByte samplePayload)
      (fold 0xFFFF (headerV1 (lengthByte samplePayload) 0x00 0x4F 0x4C 0x00)) [schemaRegistry [heartbeat]] =
        some (heartbeat.decode samplePayload 9, 0x71E6) ∧
    sampleCodec.encode (heartbeat.decode samplePayload 9) = samplePayload ∧
    0x71E6 = frameChecksum (headerV1 (lengthByte samplePayload) 0x00 0x4F 0x4C 0x00) samplePayload 9 0x32 := by decide

/-- V-F-1 meets the conditions of R55. -/
theorem witness_V2FrameRoundTrips :
    let payload := samplePayload.take 8
    payload.length ≤ 255 ∧ payload ≠ [] ∧
    queryRegistries (messageIdV2 0 0 0) payload (lengthByte payload)
      (fold 0xFFFF (headerV2 (lengthByte payload) 0x00 0x00 0x07 0x4F 0x4C [0x00, 0x00, 0x00]))
      [schemaRegistry [heartbeat]] = some (heartbeat.decode payload 8, 0x0A2F) ∧
    trimTrailingZeros (sampleCodec.encode (heartbeat.decode payload 8)) = payload ∧
    0x0A2F = frameChecksum (headerV2 (lengthByte payload) 0x00 0x00 0x07 0x4F 0x4C [0x00, 0x00, 0x00]) payload 9 0x32 := by
  decide

end Sys2Proof.Tests
end

section
/-! Little-endian wire fields as sums of their bytes, and the bytes of such a sum (spec/30_encoding.md rules R48, R49). -/

namespace Sys2Proof.Machine

/-- A shifted field above a value that fits below it: the or of the two is their sum. -/
theorem toNat_or_shiftLeft {n k : Nat} (x y : BitVec n) (hx : x.toNat < 2 ^ k) (hy : y.toNat * 2 ^ k < 2 ^ n) :
    (x ||| y <<< k).toNat = x.toNat + 2 ^ k * y.toNat := by
  have hs : (y <<< k).toNat = y.toNat <<< k := by
    rw [BitVec.toNat_shiftLeft, Nat.mod_eq_of_lt (by rwa [Nat.shiftLeft_eq])]
  rw [BitVec.toNat_or, hs, Nat.or_comm, ← Nat.shiftLeft_add_eq_or_of_lt hx, Nat.shiftLeft_eq, Nat.mul_comm, Nat.add_comm]

theorem toNat_messageIdV1 (m : Byte) : (messageIdV1 m).toNat = m.toNat :=
  BitVec.toNat_setWidth_of_le (by decide)

theorem toNat_checksumField (lo hi : Byte) : (checksumField lo hi).toNat = lo.toNat + 2 ^ 8 * hi.toNat := by
  have zext (b : Byte) : (b.setWidth 16).toNat = b.toNat := BitVec.toNat_setWidth_of_le (by decide)
  rw [checksumField, toNat_or_shiftLeft, zext, zext] <;> rw [zext] <;> omega

theorem toNat_messageIdV2 (m0 m1 m2 : Byte) :
    (messageIdV2 m0 m1 m2).toNat = m0.toNat + 2 ^ 8 * m1.toNat + 2 ^ 16 * m2.toNat := by
  have zext (b : Byte) : (b.setWidth 24).toNat = b.toNat := BitVec.toNat_setWidth_of_le (by decide)
  have h01 : (m0.setWidth 24 ||| m1.setWidth 24 <<< 8).toNat = m0.toNat + 2 ^ 8 * m1.toNat := by
    rw [toNat_or_shiftLeft, zext, zext] <;> rw [zext] <;> omega
  rw [messageIdV2, toNat_or_shiftLeft, h01, zext]
  · rw [h01]; omega
  · rw [zext]; omega

/-- A byte of a wider value is the digit base 256 at its place. -/
theorem extractByte_eq {n k : Nat} {x : BitVec n} {b : Byte} (h : x.toNat / 2 ^ k % 2 ^ 8 = b.toNat) :
    x.extractLsb' k 8 = b := by
  apply BitVec.eq_of_toNat_eq
  rw [BitVec.extractLsb'_toNat, Nat.shiftRight_eq_div_pow, h]

theorem messageIdBytes_messageIdV2 (m0 m1 m2 : Byte) : messageIdBytes (messageIdV2 m0 m1 m2) = [m0, m1, m2] := by
  have hsum := toNat_messageIdV2 m0 m1 m2
  have h0 : (messageIdV2 m0 m1 m2).extractLsb' 0 8 = m0 := extractByte_eq (by omega)
  have h1 : (messageIdV2 m0 m1 m2).extractLsb' 8 8 = m1 := extractByte_eq (by omega)
  have h2 : (messageIdV2 m0 m1 m2).extractLsb' 16 8 = m2 := extractByte_eq (by omega)
  rw [messageIdBytes, h0, h1, h2]

theorem checksumBytes_checksumField (lo hi : Byte) : checksumBytes (checksumField lo hi) = [lo, hi] := by
  have hsum := toNat_checksumField lo hi
  have hl : (checksumField lo hi).extractLsb' 0 8 = lo := extractByte_eq (by omega)
  have hh : (checksumField lo hi).extractLsb' 8 8 = hi := extractByte_eq (by omega)
  rw [checksumBytes, hl, hh]

/-- A checksum is the field of its own two bytes. -/
theorem checksumField_bytes (c : U16) : checksumField (c.extractLsb' 0 8) (c.extractLsb' 8 8) = c := by
  apply BitVec.eq_of_toNat_eq
  rw [toNat_checksumField, BitVec.extractLsb'_toNat, BitVec.extractLsb'_toNat, Nat.shiftRight_eq_div_pow,
    Nat.shiftRight_eq_div_pow]
  omega

/-- Settles O54: the fields do not overlap, so the or of the shifted bytes is their sum, and its digits are the bytes. -/
theorem messageIdIsLittleEndian : Obligations.MessageIdIsLittleEndian := fun m0 m1 m2 =>
  ⟨toNat_messageIdV1 m0, toNat_messageIdV2 m0 m1 m2, messageIdBytes_messageIdV2 m0 m1 m2⟩

/-- Settles O55: as O54, and back from the checksum to its bytes. -/
theorem checksumFieldIsLittleEndian : Obligations.ChecksumFieldIsLittleEndian :=
  ⟨fun lo hi => ⟨toNat_checksumField lo hi, checksumBytes_checksumField lo hi⟩,
    fun c => ⟨c.extractLsb' 0 8, c.extractLsb' 8 8, rfl, checksumField_bytes c⟩⟩

end Sys2Proof.Machine
end

section
/-! Every word is the word of one command, or illegal for one reason (spec/30_encoding.md rules R37 to R39). -/

namespace Sys2Proof

/-- A must-be-0 check fails for one reason. -/
theorem requireZero_error {z : Bool} {i : Instr} {e : IllegalWord} :
    requireZero z i = .error e ↔ z = false ∧ e = .nonzeroMustBeZero := by
  cases z <;> simp [requireZero, eq_comm]

/-- The decoder reads a command's word back. -/
theorem decode_encode (i : Instr) : decode (encode i) = .ok i := by
  cases i <;>
    simp [decode, encode, requireZero, opcField_packFields, imm16Field_packFields, imm8Field_packFields]

/-- A word is the packing of whatever its fields are known to be. -/
theorem packFields_eq_of_fields {w : Word} {opc : Byte} {imm16 : U16} {imm8 : Byte} (hopc : opcField w = opc)
    (h16 : imm16Field w = imm16) (h8 : imm8Field w = imm8) : packFields opc imm16 imm8 = w := by
  rw [← hopc, ← h16, ← h8, packFields_fields]

/-- A word that decodes to a command is that command's word: the opcode is the branch taken, the operands are read from
their fields, and the checked fields are 0. -/
theorem encode_of_decode {w : Word} {i : Instr} (h : decode w = .ok i) : encode i = w := by
  unfold decode at h
  repeat' split at h
  case isTrue step => cases h; exact packFields_eq_of_fields step rfl rfl
  case isFalse => cases h
  all_goals
    simp only [requireZero_ok, Bool.and_eq_true, beq_iff_eq] at h
    obtain ⟨hz, rfl⟩ := h
  · exact packFields_eq_of_fields ‹_› hz.1 hz.2
  · exact packFields_eq_of_fields ‹_› rfl hz
  · exact packFields_eq_of_fields ‹_› hz rfl
  · exact packFields_eq_of_fields ‹_› hz.1 hz.2
  · exact packFields_eq_of_fields ‹_› hz rfl
  · exact packFields_eq_of_fields ‹_› hz.1 hz.2

theorem decode_eq_ok_iff {w : Word} {i : Instr} : decode w = .ok i ↔ encode i = w :=
  ⟨encode_of_decode, fun h => h ▸ decode_encode i⟩

/-- An opcode field that is none of R37's values falls through the whole decoder. -/
theorem decode_eq_unassigned_iff {w : Word} :
    decode w = .error .unassignedOpcode ↔ opcField w ∉ ([0x01, 0x02, 0x03, 0x04, 0x05, 0x10, 0x11] : List Byte) := by
  unfold decode
  (repeat' split) <;> simp_all [requireZero_error]

/-- The must-be-0 fields of R37 by opcode: a word with an assigned opcode is illegal where one of them is not zero. -/
theorem decode_eq_nonzero_iff {w : Word} :
    decode w = .error .nonzeroMustBeZero ↔
      (opcField w ∈ ([0x02, 0x05, 0x11] : List Byte) ∧ ¬(imm16Field w = 0 ∧ imm8Field w = 0)) ∨
      (opcField w = 0x03 ∧ imm8Field w ≠ 0) ∨
      (opcField w ∈ ([0x04, 0x10] : List Byte) ∧ imm16Field w ≠ 0) := by
  unfold decode
  (repeat' split) <;> simp_all [requireZero_error]

/-- Bits 0 to 23 are the two operand fields together (R36). -/
theorem operandBits_eq_zero_iff {w : Word} : w.extractLsb' 0 24 = 0 ↔ imm16Field w = 0 ∧ imm8Field w = 0 := by
  simp only [imm16Field, imm8Field, ← BitVec.toNat_inj, BitVec.extractLsb'_toNat, Nat.shiftRight_eq_div_pow,
    BitVec.ofNat_eq_ofNat, BitVec.toNat_ofNat]
  omega

theorem toNat_mem_map_toNat {n : Nat} {b : BitVec n} {l : List (BitVec n)} : b.toNat ∈ l.map BitVec.toNat ↔ b ∈ l :=
  ⟨fun h => by
    obtain ⟨c, hc, he⟩ := List.mem_map.mp h
    exact BitVec.eq_of_toNat_eq he ▸ hc, List.mem_map_of_mem⟩

/-- The mask of a row, by its opcode. -/
def maskOfOpcode (opc : Byte) : Word :=
  if opc = 0x01 then 0xFF000000
  else if opc = 0x03 then 0xFF0000FF
  else if opc = 0x04 ∨ opc = 0x10 then 0xFFFFFF00
  else 0xFFFFFFFF

theorem maskBits_eq (i : Instr) : i.maskBits = maskOfOpcode (opcField i.matchBits) := by
  cases i <;> simp only [Instr.matchBits, Instr.maskBits] <;> decide

theorem matchBits_eq (i : Instr) : i.matchBits = packFields (opcField i.matchBits) 0 0 := by
  cases i <;> simp only [Instr.matchBits] <;> decide

theorem opcField_maskBits (i : Instr) : opcField i.maskBits = BitVec.allOnes 8 := by
  cases i <;> simp only [Instr.maskBits] <;> decide

/-- Every mask covers `W[31:24]`, so a word that a row accepts has that row's opcode (R39). -/
theorem opcField_of_accepted {w : Word} {i : Instr} (h : w &&& i.maskBits = i.matchBits) :
    opcField w = opcField i.matchBits := by
  have hand : opcField (w &&& i.maskBits) = opcField w &&& opcField i.maskBits := BitVec.extractLsb'_and
  rw [← h, hand, opcField_maskBits, BitVec.and_allOnes]

/-- Rows with one opcode are one row. -/
theorem row_eq_of_opcField_eq {i j : Instr} (h : opcField i.matchBits = opcField j.matchBits) :
    i.matchBits = j.matchBits ∧ i.maskBits = j.maskBits := by
  constructor
  · rw [matchBits_eq i, matchBits_eq j, h]
  · rw [maskBits_eq i, maskBits_eq j, h]

/-- Settles O3: the decoder is the inverse of the encoder, and every mask covers the opcode, which fixes the row. -/
theorem everyWordIsOneCommandOrIllegal : Obligations.EveryWordIsOneCommandOrIllegal := by
  refine ⟨fun w => ?_, fun w i j hi hj => ?_⟩
  · cases hd : decode w with
    | ok i =>
      refine .inl ⟨i, rfl, encode_of_decode hd, fun j hj => ?_⟩
      exact Except.ok.inj ((decode_eq_ok_iff.mpr hj).symm.trans hd)
    | error e =>
      refine .inr ⟨⟨e, rfl⟩, fun j hj => ?_⟩
      exact nomatch (decode_eq_ok_iff.mpr hj).symm.trans hd
  · have hopc := (opcField_of_accepted hi).symm.trans (opcField_of_accepted hj)
    obtain ⟨hmatch, hmask⟩ := row_eq_of_opcField_eq hopc
    exact ⟨hmatch, hmask, opcField_of_accepted hi⟩

end Sys2Proof

namespace Sys2Proof.Machine

/-- A step with a command word next runs that word. -/
theorem step_command {s : State} {w : Word} {rest : List HostEvent} (h : s.inbox = .command w :: rest) :
    step s = State.command exec { s with inbox := rest } w := by
  simp [step, State.takeEvent, h]

/-- A word the decoder refuses is answered `ILLEGAL`, with nothing else changed (R38). -/
theorem answersIllegal_of_decode_error {w : Word} {e : IllegalWord} (h : decode w = .error e) : AnswersIllegal w := by
  intro s rest hin
  rw [step_command hin, State.command, h]
  rfl

/-- Settles O5: the two reasons read off the decoder's branches, and the step of a refused word. -/
theorem illegalWordsAnswerIllegalAndChangeNothing : Obligations.IllegalWordsAnswerIllegalAndChangeNothing := by
  intro w
  refine ⟨?_, ?_, fun e h => answersIllegal_of_decode_error h⟩
  · rw [decode_eq_unassigned_iff, ← toNat_mem_map_toNat]
    rfl
  · rw [decode_eq_nonzero_iff, ← operandBits_eq_zero_iff, ← toNat_mem_map_toNat, ← toNat_mem_map_toNat,
      ← BitVec.toNat_inj (y := 0x03)]
    rfl

end Sys2Proof.Machine
end

section
/-! The recurrence as arithmetic and as linear maps over xor (spec/40_crc.md rules R56, R57, R65). -/

namespace Sys2Proof.Machine

/-! ### The recurrence over natural numbers. -/

theorem toNat_accTmp (crc : U16) (b : Byte) :
    (accTmp crc b).toNat =
      (b.toNat ^^^ crc.toNat % 2 ^ 8) ^^^ ((b.toNat ^^^ crc.toNat % 2 ^ 8) <<< 4) % 2 ^ 8 := by
  simp only [accTmp, BitVec.toNat_xor, BitVec.toNat_shiftLeft, BitVec.toNat_setWidth]

/-- The xor of the shifted values, truncated once at the end: the shifts to the right and the high byte already fit. -/
theorem toNat_acc (crc : U16) (b : Byte) :
    (acc crc b).toNat =
      ((crc.toNat >>> 8) ^^^ ((accTmp crc b).toNat <<< 8) ^^^ ((accTmp crc b).toNat <<< 3) ^^^
        ((accTmp crc b).toNat >>> 4)) % 2 ^ 16 := by
  have hcrc : (crc.toNat >>> 8) % 2 ^ 16 = crc.toNat >>> 8 :=
    Nat.mod_eq_of_lt (by rw [Nat.shiftRight_eq_div_pow]; omega)
  have htmp : ((accTmp crc b).toNat >>> 4) % 2 ^ 16 = (accTmp crc b).toNat >>> 4 :=
    Nat.mod_eq_of_lt (by rw [Nat.shiftRight_eq_div_pow]; omega)
  have hzext : ((accTmp crc b).setWidth 16).toNat = (accTmp crc b).toNat := BitVec.toNat_setWidth_of_le (by decide)
  simp only [acc, BitVec.toNat_xor, BitVec.toNat_shiftLeft, BitVec.toNat_ushiftRight, hzext, Nat.xor_mod_two_pow,
    hcrc, htmp]

/-- Settles O13: `toNat` takes each word operation to its operation on numbers, and no truncation of an 8-bit line but
that of the shift changes a value. -/
theorem accIsTheByteRecurrence : Obligations.AccIsTheByteRecurrence := by
  intro crc b
  have hlow : b.toNat ^^^ crc.toNat % 2 ^ 8 < 2 ^ 8 := Nat.xor_lt_two_pow b.isLt (Nat.mod_lt _ (by decide))
  simp only [Nat.mod_eq_of_lt hlow, ← toNat_accTmp, Nat.mod_eq_of_lt (accTmp crc b).isLt]
  exact toNat_acc crc b

/-! ### The high byte of the crc only moves down. -/

/-- The two parts of the recurrence: the high byte shifted down, and what the low byte and the operand give together. -/
theorem acc_eq_shift_xor (c : U16) (b : Byte) : acc c b = (c >>> 8) ^^^ acc 0x0000 (c.setWidth 8 ^^^ b) := by
  have htmp : accTmp 0x0000 (c.setWidth 8 ^^^ b) = accTmp c b := by simp [accTmp, BitVec.xor_comm]
  simp only [acc, htmp, BitVec.xor_assoc]
  simp

/-- R65, first identity: the extension of a byte has no high byte, so the byte may be moved into the crc. -/
theorem acc_eq_acc_xor_zero (c : U16) (b : Byte) : acc c b = acc (c ^^^ b.setWidth 16) 0x00 := by
  have hhigh : b.setWidth 16 >>> 8 = (0 : U16) := by
    apply BitVec.eq_of_toNat_eq
    simp [Nat.shiftRight_eq_div_pow]
    omega
  rw [acc_eq_shift_xor, acc_eq_shift_xor (c ^^^ _), BitVec.ushiftRight_xor_distrib, hhigh]
  simp

/-- The corner case of R60: without its high byte the crc contributes the same low part. -/
theorem acc_eq_shift_xor_acc_low (c : U16) (b : Byte) : acc c b = (c >>> 8) ^^^ acc (c &&& 0x00FF) b := by
  have hhigh : (c &&& 0x00FF) >>> 8 = 0#16 := by
    rw [BitVec.ushiftRight_and_distrib]
    exact BitVec.and_zero
  have hlow : (c &&& 0x00FF).setWidth 8 = c.setWidth 8 := by
    rw [BitVec.setWidth_and]
    exact BitVec.and_allOnes
  rw [acc_eq_shift_xor, acc_eq_shift_xor (c &&& _), hhigh, hlow, BitVec.zero_xor]

/-! ### The recurrence and the bit-serial form are linear over xor. -/

theorem accTmp_xor (c d : U16) (a b : Byte) : accTmp (c ^^^ d) (a ^^^ b) = accTmp c a ^^^ accTmp d b := by
  simp only [accTmp, BitVec.setWidth_xor, BitVec.shiftLeft_xor_distrib]
  ac_rfl

theorem acc_xor (c d : U16) (a b : Byte) : acc (c ^^^ d) (a ^^^ b) = acc c a ^^^ acc d b := by
  simp only [acc, accTmp_xor, BitVec.setWidth_xor, BitVec.shiftLeft_xor_distrib, BitVec.ushiftRight_xor_distrib]
  ac_rfl

/-- The bit shifted out selects the constant. -/
theorem bitSerialStep_eq (c : U16) : bitSerialStep c = (c >>> 1) ^^^ (if c.getLsbD 0 then 0x8408 else 0) := by
  have hbit : c &&& 1 = 1 ↔ c.getLsbD 0 = true := by
    rw [show (1 : U16) = BitVec.twoPow 16 0 from rfl, BitVec.and_twoPow]
    cases c.getLsbD 0 <;> decide
  simp only [bitSerialStep, hbit]
  split <;> simp

theorem bitSerialStep_xor (c d : U16) : bitSerialStep (c ^^^ d) = bitSerialStep c ^^^ bitSerialStep d := by
  have hconst : (if (c ^^^ d).getLsbD 0 then (0x8408 : U16) else 0) =
      (if c.getLsbD 0 then 0x8408 else 0) ^^^ (if d.getLsbD 0 then 0x8408 else 0) := by
    rw [BitVec.getLsbD_xor]
    cases c.getLsbD 0 <;> cases d.getLsbD 0 <;> rfl
  simp only [bitSerialStep_eq, hconst, BitVec.ushiftRight_xor_distrib]
  ac_rfl

theorem bitSerialSteps_xor (n : Nat) (c d : U16) :
    bitSerialSteps n (c ^^^ d) = bitSerialSteps n c ^^^ bitSerialSteps n d := by
  induction n generalizing c d with
  | zero => rfl
  | succ n ih => rw [bitSerialSteps, bitSerialStep_xor, ih]; rfl

/-- What holds of 0 and of every single bit, and of the xor of two values it holds of, holds of every value. -/
theorem xor_induction {n : Nat} {P : BitVec n → Prop} (zero : P 0) (bit : ∀ i < n, P (BitVec.twoPow n i))
    (xor : ∀ x y, P x → P y → P (x ^^^ y)) (x : BitVec n) : P x := by
  suffices below : ∀ k ≤ n, ∀ x : BitVec n, (∀ i, k ≤ i → x.getLsbD i = false) → P x from
    below n (Nat.le_refl n) x (fun i hi => BitVec.getLsbD_of_ge x i hi)
  intro k hk
  induction k with
  | zero =>
    intro x hx
    have hzero : x = 0 := BitVec.eq_of_getLsbD_eq fun i _ => by simp [hx i (Nat.zero_le i)]
    exact hzero ▸ zero
  | succ k ih =>
    intro x hx
    have cleared (y : BitVec n) (hk' : y.getLsbD k = false) (hy : ∀ i, k < i → y.getLsbD i = false) : P y :=
      ih (by omega) y fun i hi => (Nat.eq_or_lt_of_le hi).elim (fun h => h ▸ hk') (hy i)
    cases hbit : x.getLsbD k with
    | false => exact cleared x hbit hx
    | true =>
      have hrest : P (x ^^^ BitVec.twoPow n k) := by
        apply cleared
        · simp [hbit, show k < n by omega]
        · intro i hi
          simp [hx i hi, show k ≠ i by omega]
      simpa [BitVec.xor_assoc] using xor _ _ hrest (bit k (by omega))

/-- A zero byte runs the crc through eight steps: both sides are linear, and they agree on the sixteen single bits. -/
theorem acc_zero_eq_bitSerialSteps (c : U16) : acc c 0x00 = bitSerialSteps 8 c := by
  induction c using xor_induction with
  | zero => decide
  | bit i hi => revert i; decide
  | xor x y hx hy =>
    rw [bitSerialSteps_xor, ← hx, ← hy, ← acc_xor]
    rfl

/-- Settles O14: the byte is moved into the crc, and a zero byte is eight steps of the bit-serial form. -/
theorem accEqualsTheBitSerialForm : Obligations.AccEqualsTheBitSerialForm := fun c b =>
  ⟨acc_eq_acc_xor_zero c b, (acc_eq_acc_xor_zero c b).trans (acc_zero_eq_bitSerialSteps (c ^^^ b.setWidth 16))⟩

/-- Settles O15: the fold's two equations, and the induction of `fold_append`. -/
theorem foldAppliesTheRecurrenceInOrder : Obligations.FoldAppliesTheRecurrenceInOrder := fun crc b first second =>
  ⟨fold_nil crc, fold_cons crc b first, fold_append crc first second⟩

end Sys2Proof.Machine
end

section
/-! The CRC commands: the words that are theirs, the words that are illegal, and their runs (spec/40_crc.md section 2,
30_encoding.md rules R37, R38). -/

namespace Sys2Proof

/-- A field that the mask covers is fixed by the match bits. -/
theorem field_of_covered {w mask bits : Word} {start len : Nat} (h : w &&& mask = bits)
    (hmask : mask.extractLsb' start len = BitVec.allOnes len) : w.extractLsb' start len = bits.extractLsb' start len := by
  rw [← h, BitVec.extractLsb'_and, hmask, BitVec.and_allOnes]

/-- The words of R37's row for `CRC.STEP`. -/
theorem decode_of_crcStep_row {w : Word} (h : w &&& 0xFF000000 = 0x01000000) :
    decode w = .ok (.crcStep (imm16Field w) (imm8Field w)) :=
  decode_eq_ok_iff.mpr (packFields_eq_of_fields (field_of_covered h (by decide)) rfl rfl)

/-- The words of R37's row for `CRC.LOAD`. -/
theorem decode_of_crcLoad_row {w : Word} (h : w &&& 0xFF0000FF = 0x03000000) :
    decode w = .ok (.crcLoad (imm16Field w)) :=
  decode_eq_ok_iff.mpr
    (packFields_eq_of_fields (field_of_covered h (by decide)) rfl (field_of_covered h (by decide)))

/-- The words of R37's row for `CRC.ACC`. -/
theorem decode_of_crcAcc_row {w : Word} (h : w &&& 0xFFFFFF00 = 0x04000000) :
    decode w = .ok (.crcAcc (imm8Field w)) :=
  decode_eq_ok_iff.mpr
    (packFields_eq_of_fields (field_of_covered h (by decide)) (field_of_covered h (by decide)) rfl)

end Sys2Proof

namespace Sys2Proof.Machine

/-- A word of a command without operands whose operand bits are not all 0 (R38). -/
theorem answersIllegal_of_no_operands {w : Word} (hopc : opcField w ∈ ([0x02, 0x05, 0x11] : List Byte))
    (himm : imm16Field w ≠ 0 ∨ imm8Field w ≠ 0) : AnswersIllegal w :=
  answersIllegal_of_decode_error (decode_eq_nonzero_iff.mpr (.inl ⟨hopc, fun hz => himm.elim (· hz.1) (· hz.2)⟩))

/-- `CRC.ACCS` from any state (R44): `ACC` continues the fold, and only responses are added. -/
theorem runCommands_crcAccs {M : Type} (cfg : Params M) (codes : Bytes) (s : State M) :
    ∃ responses, runCommands cfg (crcAccs codes) s =
      .next { s with acc := fold s.acc codes, outbox := s.outbox ++ responses } := by
  induction codes generalizing s with
  | nil => exact ⟨[], by simp [crcAccs, runCommands]⟩
  | cons b codes ih =>
    obtain ⟨responses, h⟩ := ih ((s.setAcc (acc s.acc b)).respond (.value (acc s.acc b)))
    refine ⟨.value (acc s.acc b) :: responses, h.trans ?_⟩
    simp [State.setAcc, State.respond]

/-- A checksum computed by the host (R44, R61, R64): seed, accumulate, read. -/
theorem runCommands_checksum {M : Type} (cfg : Params M) (codes : Bytes) (s : State M) :
    ∃ t, runCommands cfg ([.crcInit] ++ crcAccs codes ++ [.crcRead]) s = .next t ∧
      t.outbox.getLast? = some (.value (fold crcSeed codes)) := by
  obtain ⟨responses, h⟩ := runCommands_crcAccs cfg codes ((s.setAcc crcSeed).respond .none)
  have hseed : runCommands cfg ([.crcInit] ++ crcAccs codes) s = _ := h
  exact ⟨_, runCommands_append hseed, List.getLast?_concat⟩

/-- Settles O17: the effect is the arm's, the words are R37's row, and the corner cases are the two parts of the
recurrence. -/
theorem crcStepRespondsWithTheRecurrence : Obligations.CrcStepRespondsWithTheRecurrence := fun _ crc b =>
  ⟨rfl, fun _ => decode_of_crcStep_row, by decide, acc_eq_acc_xor_zero crc b, acc_eq_shift_xor_acc_low crc b,
    by decide, by decide, by decide, by decide⟩

/-- Settles O18: the effect is the arm's, and R38 refuses any operand bit. -/
theorem crcInitSeedsTheAccumulator : Obligations.CrcInitSeedsTheAccumulator := fun _ =>
  ⟨rfl, decode_encode .crcInit, fun _ hopc => answersIllegal_of_no_operands (by simp [opcField, hopc])⟩

/-- Settles O19: the effect is the arm's, the words are R37's row, and R38 refuses a non-zero IMM8. -/
theorem crcLoadLoadsTheAccumulator : Obligations.CrcLoadLoadsTheAccumulator := fun _ _ =>
  ⟨rfl, fun _ => decode_of_crcLoad_row,
    fun _ hopc himm => answersIllegal_of_decode_error (decode_eq_nonzero_iff.mpr (.inr (.inl ⟨hopc, himm⟩))),
    rfl, by decide⟩

/-- Settles O20: the effect is the arm's, the words are R37's row, and R38 refuses a non-zero IMM16. -/
theorem crcAccFoldsOneByteIntoTheAccumulator : Obligations.CrcAccFoldsOneByteIntoTheAccumulator := fun _ _ =>
  ⟨rfl, fun _ => decode_of_crcAcc_row,
    fun _ hopc himm => answersIllegal_of_decode_error
      (decode_eq_nonzero_iff.mpr (.inr (.inr ⟨by simp [opcField, hopc], himm⟩))),
    by decide, by decide, by decide, by decide⟩

/-- Settles O21: the effect is the arm's, R38 refuses any operand bit, and the example is the checksum of its string. -/
theorem crcReadReturnsTheAccumulator : Obligations.CrcReadReturnsTheAccumulator := fun s cfg =>
  have hcheck : fold crcSeed [0x31, 0x32, 0x33, 0x34, 0x35, 0x36, 0x37, 0x38, 0x39] = 0x6F91 := by decide
  ⟨rfl, decode_encode .crcRead, fun _ hopc => answersIllegal_of_no_operands (by simp [opcField, hopc]), rfl,
    hcheck ▸ runCommands_checksum cfg _ s⟩

end Sys2Proof.Machine
end

section
/-! The parser's header states, the first checksum byte and the reset (spec/41_parser.md rules R68, R69, R72 to R75,
R77 and R87). -/

namespace Sys2Proof.Machine

variable {M : Type} {cfg : Params M}

/-! ### What the state rules write. -/

/-- In AWAIT_START a byte that is no marker leaves the record (R68). -/
theorem Parser.onStart_noise {b : Byte} (p : Parser) (h1 : b ≠ 0xFE) (h2 : b ≠ 0xFD) : p.onStart b = p := by
  rw [onStart, markerV1, markerV2, if_neg h1, if_neg h2]

/-- AWAIT_MESSAGE_ID under `SKIP` (R6, R75): the byte is always appended and folded, and only the state branches. -/
theorem Parser.onMessageId_skip {p : Parser} (b : Byte) (hst : p.st = .awaitMessageId) :
    p.onMessageId .skip b = .ok { p.appendMessageId b with
      st := if p.mid.length + 1 = p.need then (if p.len = some 0 then .awaitChecksum else .awaitPayload)
        else .awaitMessageId } := by
  by_cases h : p.mid.length + 1 = p.need
  · rw [onMessageId_last h, if_pos h]
  · rw [onMessageId_more h, if_neg h, ← hst]
    rfl

/-! ### Commands. -/

/-- A byte of noise is answered `NONE`, and that is all (R68). -/
theorem execWith_prsByte_noise {s : State M} {b : Byte} (hst : s.prs.st = .awaitStart) (h1 : b ≠ 0xFE)
    (h2 : b ≠ 0xFD) : execWith cfg (.prsByte b) s = .next (s.respond .none) := by
  have hc := Parser.consume_start (cfg := cfg) (b := b) hst
  rw [Parser.onStart_noise _ h1 h2] at hc
  exact execWith_prsByte_of_consume hc

/-- `PRS.RESET` after a run gives the reset record, whatever record the run left (R87). -/
theorem runCommands_then_prsReset {xs : List Instr} {s t : State M} (h : runCommands cfg xs s = .next t) :
    runCommands cfg (xs ++ [.prsReset]) s = .next ((t.setParser Parser.reset).respond .none) :=
  runCommands_append h

/-- Settles O27: the block is built with `SKIP`, and the state rule appends and folds the byte in each branch. -/
theorem messageIdByteAppendsAndBranchesOnLength : Obligations.MessageIdByteAppendsAndBranchesOnLength := by
  intro s b hst
  have hc : s.prs.consume Config.params b = silently (s.prs.onMessageId .skip b) := Parser.consume_messageId hst
  rw [Parser.onMessageId_skip b hst, silently_ok] at hc
  exact exec_prsByte_of_consume hc

/-- Settles O23: the rule of AWAIT_START, whose three branches are the statement's. -/
theorem startMarkersAreRememberedAndNoiseDiscarded : Obligations.StartMarkersAreRememberedAndNoiseDiscarded :=
  fun _ _ hst => exec_prsByte_of_consume (Parser.consume_start hst)

/-- Settles O24: the rule of AWAIT_LENGTH. -/
theorem lengthByteIsStoredAndFolded : Obligations.LengthByteIsStoredAndFolded :=
  fun _ _ hst => exec_prsByte_of_consume (Parser.consume_length hst)

/-- Settles O26: the rules of the three states. -/
theorem sequenceSystemComponentAreStoredAndFolded : Obligations.SequenceSystemComponentAreStoredAndFolded :=
  fun _ _ =>
    ⟨fun hst => exec_prsByte_of_consume (Parser.consume_sequence hst),
      fun hst => exec_prsByte_of_consume (Parser.consume_systemId hst),
      fun hst => exec_prsByte_of_consume (Parser.consume_componentId hst)⟩

/-- Settles O30: with `CKLO = none` the byte is the first of the two. -/
theorem firstChecksumByteIsStored : Obligations.FirstChecksumByteIsStored := by
  intro s b hst hlo
  have hc := Parser.consume_checksum (cfg := Config.params) (b := b) hst
  rw [Parser.onChecksum_first hlo] at hc
  exact exec_prsByte_of_consume hc

/-- Settles O37: the effect is the arm's, R38 refuses any operand bit, and after the reset of the example the next byte
is noise. -/
theorem prsResetDropsThePartialFrame : Obligations.PrsResetDropsThePartialFrame := by
  intro s cfg
  obtain ⟨w, hw⟩ : ∃ w, runCommands cfg (prsBytes [0xFE, 0x09, 0x00]) State.reset = .next w := ⟨_, rfl⟩
  exact ⟨rfl, decode_encode .prsReset, fun _ hopc => answersIllegal_of_no_operands (by simp [opcField, hopc]),
    _, _, runCommands_then_prsReset hw, rfl, rfl, execWith_prsByte_noise rfl (by decide) (by decide), rfl⟩

end Sys2Proof.Machine
end

section
/-! Every byte in every parser state (spec/41_parser.md rule R88, 60_exceptions.md rule R97): under the invariant each
state rule takes its byte and gives a record that meets the invariant again. -/

namespace Sys2Proof.Machine

variable {M : Type} {cfg : Params M} {p q : Parser} {b : Byte}

/-! ### The invariant in the header states. -/

/-- R88.2 to R88.4: what the invariant says of `VER` and the six header fields. -/
abbrev Parser.HeaderFits (p : Parser) : Prop :=
  (p.st ≠ .awaitStart → p.ver ≠ none) ∧
  (p.st = .awaitIncompatFlags ∨ p.st = .awaitCompatFlags → p.ver = some .v2) ∧
  (p.len.isSome ↔ 1 < p.st.code) ∧
  (p.incompat.isSome ↔ p.ver = some .v2 ∧ 2 < p.st.code) ∧
  (p.compat.isSome ↔ p.ver = some .v2 ∧ 3 < p.st.code) ∧
  (p.seq.isSome ↔ 4 < p.st.code) ∧
  (p.sys.isSome ↔ 5 < p.st.code) ∧
  (p.comp.isSome ↔ 6 < p.st.code)

/-- Nothing after the six header fields has been filled. -/
def Parser.BodyEmpty (p : Parser) : Prop :=
  p.mid = [] ∧ p.buf = [] ∧ p.cnt = 0 ∧ p.cklo = none ∧ p.ckhi = none

theorem Parser.Inv.headerFits (h : p.Inv) : p.HeaderFits :=
  ⟨h.markerKnown, h.flagStatesAreV2, h.lenFilled, h.incompatFilled, h.compatFilled, h.seqFilled, h.sysFilled,
    h.compFilled⟩

theorem Parser.Inv.cklo_eq_none (h : p.Inv) (hst : p.st ≠ .awaitChecksum) : p.cklo = none :=
  Decidable.not_not.mp (mt h.ckloOnlyInChecksum hst)

theorem Parser.Inv.bodyEmpty (h : p.Inv) (hst : p.st.code < 7) : p.BodyEmpty := by
  have hcnt := h.cntZero (by omega)
  have hbuf : p.buf = [] := List.eq_nil_iff_forall_not_mem.mpr fun c hc => by simpa [hcnt] using h.bufBelowCnt c hc
  have hck : p.st ≠ .awaitChecksum := fun e => by simp [e, ParserState.code] at hst
  exact ⟨h.midEmpty hst, hbuf, hcnt, h.cklo_eq_none hck, h.ckhiEmpty⟩

theorem Parser.need_pos (p : Parser) : 0 < p.need := by
  unfold need
  split <;> omega

/-- Between the marker and the message ID the invariant is its clauses about the header. -/
theorem Parser.inv_of_headerFits (hst : p.st ≠ .awaitStart) (hcode : p.st.code ≤ 7) (hfits : p.HeaderFits)
    (hbody : p.BodyEmpty) (hcrc : p.hcrc = fold crcSeed p.headerSoFar) : p.Inv := by
  obtain ⟨hver, hflags, hlen, hincompat, hcompat, hseq, hsys, hcomp⟩ := hfits
  obtain ⟨hmid, hbuf, hcnt, hcklo, hckhi⟩ := hbody
  exact {
    idleIsCleared := fun e => absurd e hst
    markerKnown := hver
    flagStatesAreV2 := hflags
    lenFilled := hlen
    incompatFilled := hincompat
    compatFilled := hcompat
    seqFilled := hseq
    sysFilled := hsys
    compFilled := hcomp
    midEmpty := fun _ => hmid
    midShort := fun _ => by simpa [hmid] using p.need_pos
    midWhole := fun hc => by omega
    cntZero := fun _ => hcnt
    payloadBound := fun e => by simp [e, ParserState.code] at hcode
    payloadWhole := fun e => by simp [e, ParserState.code] at hcode
    ckloOnlyInChecksum := fun hc => absurd hcklo hc
    ckhiEmpty := hckhi
    headerCrc := hcrc
    bufWf := by simp [hbuf, Memory.wf]
    bufBelowCnt := by simp [hbuf] }

/-- R88.4 and R88.5 read the other way: before its state a part of the header is not there. -/
theorem Parser.Inv.empty_before (h : p.Inv) :
    (p.st.code ≤ 1 → p.len = none) ∧ (p.st.code ≤ 2 → p.incompat = none) ∧ (p.st.code ≤ 3 → p.compat = none) ∧
    (p.st.code ≤ 4 → p.seq = none) ∧ (p.st.code ≤ 5 → p.sys = none) ∧ (p.st.code ≤ 6 → p.comp = none) ∧
    (p.st.code ≤ 6 → p.mid = []) := by
  simp only [← Option.not_isSome_iff_eq_none, h.lenFilled, h.incompatFilled, h.compatFilled, h.seqFilled, h.sysFilled,
    h.compFilled]
  refine ⟨?_, ?_, ?_, ?_, ?_, ?_, fun hc => h.midEmpty (by omega)⟩ <;> omega

/-- A byte that is appended to the header and folded, with the state going forward to at most AWAIT_MESSAGE_ID, keeps
the invariant (R21, R69 to R74). -/
theorem Parser.Inv.header_step {st st' : ParserState} (h : p.Inv) (hp : p.st = st) (hq : q.st = st')
    (hcode : st.code < st'.code ∧ st'.code ≤ 7) (hfits : q.HeaderFits) (hbody : p.BodyEmpty → q.BodyEmpty)
    (hheader : q.headerSoFar = p.headerSoFar ++ [b]) (hcrc : q.hcrc = acc p.hcrc b) : q.Inv := by
  subst hp hq
  have hst : q.st ≠ .awaitStart := fun e => by simp [e, ParserState.code] at hcode
  exact inv_of_headerFits hst hcode.2 hfits (hbody (h.bodyEmpty (by omega)))
    (by rw [hcrc, hheader, fold_concat, h.headerCrc])

/-! ### The invariant in AWAIT_PAYLOAD and AWAIT_CHECKSUM. -/

/-- From AWAIT_MESSAGE_ID on the header fields constrain the state no more. -/
theorem Parser.HeaderFits.with_st {st : ParserState} (h : p.HeaderFits) (hp : 7 ≤ p.st.code) (hst : 7 ≤ st.code) :
    ({ p with st := st } : Parser).HeaderFits := by
  obtain ⟨hver, -, hlen, hincompat, hcompat, hseq, hsys, hcomp⟩ := h
  have hstart : p.st ≠ .awaitStart := fun e => by simp [e, ParserState.code] at hp
  have hflags : ¬(st = .awaitIncompatFlags ∨ st = .awaitCompatFlags) := by
    rintro (rfl | rfl) <;> simp [ParserState.code] at hst
  have hcode (k : Nat) (hk : k < 7) : k < p.st.code ↔ k < st.code := by omega
  exact ⟨fun _ => hver hstart, fun e => absurd e hflags, hlen.trans (hcode 1 (by decide)),
    hincompat.trans (and_congr_right fun _ => hcode 2 (by decide)),
    hcompat.trans (and_congr_right fun _ => hcode 3 (by decide)), hseq.trans (hcode 4 (by decide)),
    hsys.trans (hcode 5 (by decide)), hcomp.trans (hcode 6 (by decide))⟩

/-- The state in which a frame with a whole header waits for its next byte (R75, R76): AWAIT_CHECKSUM once `CNT` has
reached `LEN`. -/
def Parser.bodyState (len : Option Byte) (cnt : Byte) : ParserState :=
  if len = some cnt then .awaitChecksum else .awaitPayload

theorem Parser.seven_lt_bodyState (len : Option Byte) (cnt : Byte) : 7 < (bodyState len cnt).code := by
  unfold bodyState
  split <;> simp [ParserState.code]

/-- With a whole header and at most `LEN` payload bytes the invariant holds in the state R75 and R76 choose. -/
theorem Parser.inv_of_bodyState (hst : p.st = bodyState p.len p.cnt) (hfits : p.HeaderFits)
    (hmid : p.mid.length = p.need) (hle : ∀ l, p.len = some l → p.cnt.toNat ≤ l.toNat)
    (hck : p.cklo = none ∧ p.ckhi = none) (hcrc : p.hcrc = fold crcSeed p.headerSoFar)
    (hbuf : p.buf.wf ∧ ∀ c ∈ p.buf, c.1 < p.cnt.toNat) : p.Inv := by
  have hcode : 7 < p.st.code := hst ▸ seven_lt_bodyState p.len p.cnt
  obtain ⟨hver, hflags, hlen, hincompat, hcompat, hseq, hsys, hcomp⟩ := hfits
  exact {
    idleIsCleared := fun e => by simp [e, ParserState.code] at hcode
    markerKnown := hver
    flagStatesAreV2 := hflags
    lenFilled := hlen
    incompatFilled := hincompat
    compatFilled := hcompat
    seqFilled := hseq
    sysFilled := hsys
    compFilled := hcomp
    midEmpty := fun hc => by omega
    midShort := fun e => by simp [e, ParserState.code] at hcode
    midWhole := fun _ => hmid
    cntZero := fun hc => by omega
    payloadBound := fun e => by
      obtain ⟨l, hl⟩ := Option.isSome_iff_exists.mp (hlen.mpr (by omega))
      have hne : l.toNat ≠ p.cnt.toNat := fun heq => by
        simp [bodyState, hl, BitVec.eq_of_toNat_eq heq, e] at hst
      have := hle l hl
      exact ⟨l, hl, by omega, by omega⟩
    payloadWhole := fun e => by
      rw [e, bodyState] at hst
      split at hst
      · assumption
      · cases hst
    ckloOnlyInChecksum := fun hc => absurd hck.1 hc
    ckhiEmpty := hck.2
    headerCrc := hcrc
    bufWf := hbuf.1
    bufBelowCnt := hbuf.2 }

/-! ### Each state rule keeps the invariant. -/

theorem Parser.reset_inv : Parser.reset.Inv where
  idleIsCleared := fun _ => rfl
  markerKnown := by decide
  flagStatesAreV2 := by decide
  lenFilled := by decide
  incompatFilled := by decide
  compatFilled := by decide
  seqFilled := by decide
  sysFilled := by decide
  compFilled := by decide
  midEmpty := by decide
  midShort := by decide
  midWhole := by decide
  cntZero := by decide
  payloadBound := fun h => by cases h
  payloadWhole := by decide
  ckloOnlyInChecksum := by decide
  ckhiEmpty := rfl
  headerCrc := rfl
  bufWf := by decide
  bufBelowCnt := by decide

/-- The record right after a start marker (R68). -/
theorem Parser.inv_afterMarker (v : Version) : ({ Parser.reset with ver := some v, st := .awaitLength } : Parser).Inv :=
  inv_of_headerFits nofun (by simp [ParserState.code]) (by simp [HeaderFits, Parser.reset, ParserState.code])
    ⟨rfl, rfl, rfl, rfl, rfl⟩ rfl

theorem Parser.Inv.onStart (h : p.Inv) (hst : p.st = .awaitStart) : (p.onStart b).Inv := by
  obtain rfl := h.idleIsCleared hst
  unfold Parser.onStart
  split
  · exact inv_afterMarker .v1
  · split
    · exact inv_afterMarker .v2
    · exact h

/-- R69, in a v1 and in a v2 frame. -/
theorem Parser.Inv.onLength (h : p.Inv) (hst : p.st = .awaitLength) : (p.onLength b).Inv := by
  have hfits : (p.onLength b).HeaderFits := by
    by_cases hv : p.ver = some .v2 <;>
      simp [HeaderFits, Parser.onLength, hst, ParserState.code, h.headerFits, hv]
  exact h.header_step (st' := if p.ver = some .v2 then .awaitIncompatFlags else .awaitSequence) hst rfl
    (by split <;> decide) hfits id (by simp [headerSoFar, Parser.onLength, hst, ParserState.code, h.empty_before]) rfl

theorem Parser.Inv.onIncompatFlags (h : p.Inv) (hst : p.st = .awaitIncompatFlags) : (p.onIncompatFlags b).Inv :=
  h.header_step (st' := .awaitCompatFlags) hst rfl (by decide)
    (by simp [HeaderFits, Parser.onIncompatFlags, hst, ParserState.code, h.headerFits]) id
    (by simp [headerSoFar, Parser.onIncompatFlags, hst, ParserState.code, h.empty_before]) rfl

theorem Parser.Inv.onCompatFlags (h : p.Inv) (hst : p.st = .awaitCompatFlags) : (p.onCompatFlags b).Inv :=
  h.header_step (st' := .awaitSequence) hst rfl (by decide)
    (by simp [HeaderFits, Parser.onCompatFlags, hst, ParserState.code, h.headerFits]) id
    (by simp [headerSoFar, Parser.onCompatFlags, hst, ParserState.code, h.empty_before]) rfl

theorem Parser.Inv.onSequence (h : p.Inv) (hst : p.st = .awaitSequence) : (p.onSequence b).Inv :=
  h.header_step (st' := .awaitSystemId) hst rfl (by decide)
    (by simp [HeaderFits, Parser.onSequence, hst, ParserState.code, h.headerFits]) id
    (by simp [headerSoFar, Parser.onSequence, hst, ParserState.code, h.empty_before]) rfl

theorem Parser.Inv.onSystemId (h : p.Inv) (hst : p.st = .awaitSystemId) : (p.onSystemId b).Inv :=
  h.header_step (st' := .awaitComponentId) hst rfl (by decide)
    (by simp [HeaderFits, Parser.onSystemId, hst, ParserState.code, h.headerFits]) id
    (by simp [headerSoFar, Parser.onSystemId, hst, ParserState.code, h.empty_before]) rfl

theorem Parser.Inv.onComponentId (h : p.Inv) (hst : p.st = .awaitComponentId) : (p.onComponentId b).Inv :=
  h.header_step (st' := .awaitMessageId) hst rfl (by decide)
    (by simp [HeaderFits, Parser.onComponentId, hst, ParserState.code, h.headerFits]) id
    (by simp [headerSoFar, Parser.onComponentId, hst, ParserState.code, h.empty_before]) rfl

theorem Parser.headerSoFar_appendMessageId (p : Parser) (b : Byte) :
    (p.appendMessageId b).headerSoFar = p.headerSoFar ++ [b] := by
  simp [headerSoFar, appendMessageId, foldHeader]

/-- A message-ID byte keeps `HCRC` the checksum of the header so far (R88.8). -/
theorem Parser.Inv.appendMessageId_hcrc (h : p.Inv) :
    (p.appendMessageId b).hcrc = fold crcSeed (p.appendMessageId b).headerSoFar := by
  rw [headerSoFar_appendMessageId, fold_concat, ← h.headerCrc, Parser.appendMessageId_hcrc]

/-- The record after a message-ID byte that is not the last (R75). -/
theorem Parser.Inv.appendMessageId (h : p.Inv) (hst : p.st = .awaitMessageId) (hmore : p.mid.length + 1 ≠ p.need) :
    (p.appendMessageId b).Inv :=
  { h with
    idleIsCleared := fun e => by simp [hst] at e
    midEmpty := fun hc => by simp [hst, ParserState.code] at hc
    midShort := fun _ =>
      Nat.lt_of_le_of_lt (Nat.le_of_eq List.length_append) (Nat.lt_of_le_of_ne (h.midShort hst) hmore)
    midWhole := fun hc => by simp [hst, ParserState.code] at hc
    headerCrc := h.appendMessageId_hcrc }

/-- The record after the last message-ID byte (R75). -/
theorem Parser.Inv.appendMessageId_last (h : p.Inv) (hst : p.st = .awaitMessageId)
    (hlast : p.mid.length + 1 = p.need) : ({ p.appendMessageId b with st := bodyState p.len 0 } : Parser).Inv := by
  have hcnt := h.cntZero (by simp [hst, ParserState.code])
  refine inv_of_bodyState (congrArg (bodyState p.len) hcnt.symm) ?_ (List.length_append.trans hlast)
    (fun l _ => by simp [hcnt]) ⟨h.cklo_eq_none (by simp [hst]), h.ckhiEmpty⟩ ?_ ⟨h.bufWf, h.bufBelowCnt⟩
  · exact h.headerFits.with_st (by simp [hst, ParserState.code]) (Nat.le_of_lt (seven_lt_bodyState _ _))
  · exact h.appendMessageId_hcrc

theorem Parser.Inv.onMessageId_skip (h : p.Inv) (hst : p.st = .awaitMessageId) :
    ∃ q, p.onMessageId .skip b = .ok q ∧ q.Inv := by
  by_cases hlast : p.mid.length + 1 = p.need
  · exact ⟨_, onMessageId_last hlast, h.appendMessageId_last hst hlast⟩
  · exact ⟨_, onMessageId_more hlast, h.appendMessageId hst hlast⟩

/-- R76: below `LEN` the byte has a place in `BUF`, and the cursor stays at or below `LEN`. -/
theorem Parser.Inv.onPayload (h : p.Inv) (hst : p.st = .awaitPayload) : ∃ q, p.onPayload b = .ok q ∧ q.Inv := by
  obtain ⟨l, hl, -, hlt⟩ := h.payloadBound hst
  have hcap : p.storeIndex < Config.payloadCapacity := by
    unfold storeIndex Config.payloadCapacity
    omega
  have hcnt : (p.cnt + 1).toNat = p.cnt.toNat + 1 := by bv_omega
  refine ⟨_, onPayload_ok b hcap, inv_of_bodyState ?_ ?_ (h.midWhole (by simp [hst, ParserState.code])) ?_
    ⟨h.cklo_eq_none (by simp [hst]), h.ckhiEmpty⟩ h.headerCrc ⟨Memory.write_wf b h.bufWf hcap, fun c hc => ?_⟩⟩
  · simp only [bodyState, hst, eq_comm]
  · refine h.headerFits.with_st (by simp [hst, ParserState.code]) ?_
    split <;> simp [hst, ParserState.code]
  · intro l' hl'
    obtain rfl : l = l' := Option.some.inj (hl.symm.trans hl')
    exact Nat.le_trans (Nat.le_of_eq hcnt) hlt
  · rw [hcnt]
    rcases Memory.mem_write hc with hc | ⟨rfl, -⟩
    · exact Nat.lt_succ_of_lt (h.bufBelowCnt c hc)
    · exact Nat.lt_succ_self _

theorem Parser.Inv.onChecksumLow (h : p.Inv) (hst : p.st = .awaitChecksum) : (p.onChecksumLow b).Inv :=
  { h with
    idleIsCleared := fun e => by simp [Parser.onChecksumLow, hst] at e
    ckloOnlyInChecksum := fun _ => hst }

theorem Parser.Inv.onChecksum (h : p.Inv) (hst : p.st = .awaitChecksum) (regs : List (Registry M)) :
    (p.onChecksum regs b).1.Inv := by
  cases hlo : p.cklo with
  | none =>
    rw [onChecksum_first hlo]
    exact h.onChecksumLow hst
  | some lo =>
    rw [onChecksum_second hlo]
    exact reset_inv

/-- Under the invariant, in a block built with `SKIP`, every byte is taken, and the invariant holds again (R88, R97). -/
theorem Parser.Inv.consume (h : p.Inv) (hcfg : cfg.v2ZeroLength = .skip) (b : Byte) :
    ∃ q r, p.consume cfg b = .ok (q, r) ∧ q.Inv := by
  cases hst : p.st with
  | awaitStart => exact ⟨_, _, consume_start hst, h.onStart hst⟩
  | awaitLength => exact ⟨_, _, consume_length hst, h.onLength hst⟩
  | awaitIncompatFlags => exact ⟨_, _, consume_incompatFlags hst, h.onIncompatFlags hst⟩
  | awaitCompatFlags => exact ⟨_, _, consume_compatFlags hst, h.onCompatFlags hst⟩
  | awaitSequence => exact ⟨_, _, consume_sequence hst, h.onSequence hst⟩
  | awaitSystemId => exact ⟨_, _, consume_systemId hst, h.onSystemId hst⟩
  | awaitComponentId => exact ⟨_, _, consume_componentId hst, h.onComponentId hst⟩
  | awaitMessageId =>
    obtain ⟨q, hq, hinv⟩ := h.onMessageId_skip (b := b) hst
    exact ⟨q, .none, by rw [consume_messageId hst, hcfg, hq, silently_ok], hinv⟩
  | awaitPayload =>
    obtain ⟨q, hq, hinv⟩ := h.onPayload (b := b) hst
    exact ⟨q, .none, by rw [consume_payload hst, hq, silently_ok], hinv⟩
  | awaitChecksum => exact ⟨_, _, consume_checksum hst, h.onChecksum hst _⟩

/-- Settles O48: the state rule takes the byte and keeps the invariant, and no state rule answers anything but `NONE` or
a frame. -/
theorem noWireInputMakesTheBlockFail : Obligations.NoWireInputMakesTheBlockFail := by
  intro s b h
  obtain ⟨q, r, hc, hinv⟩ := h.consume (cfg := Config.params) rfl b
  have hr : r = .none ∨ ∃ f, r = .frame f := by
    rcases Parser.consume_response hc with hr | ⟨-, -, -, f, hr, -⟩
    · exact .inl hr
    · exact .inr ⟨f, hr⟩
  exact ⟨_, r, exec_prsByte_of_consume hc, rfl, hr, hinv, rfl, rfl⟩

end Sys2Proof.Machine
end

section
/-! Power-on (spec/70_reset_and_hazards.md rule R105): the step of the event, and the block it leaves. -/

namespace Sys2Proof.Machine

/-- A step with power-on next takes the event and resets the block. -/
theorem step_powerOn {s : State} {rest : List HostEvent} (h : s.inbox = .powerOn :: rest) :
    step s = .next (State.powerOn { s with inbox := rest }) := by
  simp [step, State.takeEvent, h]

/-- No byte of `BUF` is listed at reset, so each reads as an unlisted one (R105). -/
theorem Parser.reset_buf_read (i : Nat) : Parser.reset.buf.read i = 0x00 := Memory.read_nil i

/-- Settles O59: the step resets the block, and each field is read off the reset record, which is also what
`ClearFrame` leaves. -/
theorem powerOnResetsEveryRegister : Obligations.PowerOnResetsEveryRegister := by
  intro s rest hin
  refine ⟨_, step_powerOn hin, State.powerOn_acc _, ?_⟩
  rw [State.powerOn_prs]
  exact ⟨rfl, rfl, rfl, rfl, rfl, rfl, rfl, rfl, rfl, rfl, Parser.reset_buf_read, rfl, rfl, rfl,
    Parser.clearFrame_eq_reset⟩

end Sys2Proof.Machine
end

section
/-! The rows of R37 as match and mask, and the assembler's lines (spec/30_encoding.md sections 1 and 3). -/

namespace Sys2Proof

/-! ### Match and mask. -/

theorem opcField_and (w v : Word) : opcField (w &&& v) = opcField w &&& opcField v := BitVec.extractLsb'_and

theorem imm16Field_and (w v : Word) : imm16Field (w &&& v) = imm16Field w &&& imm16Field v := BitVec.extractLsb'_and

theorem imm8Field_and (w v : Word) : imm8Field (w &&& v) = imm8Field w &&& imm8Field v := BitVec.extractLsb'_and

/-- The and of two packed words is taken field by field (R36). -/
theorem packFields_and (o o' : Byte) (x x' : U16) (y y' : Byte) :
    packFields o x y &&& packFields o' x' y' = packFields (o &&& o') (x &&& x') (y &&& y') := by
  refine (packFields_eq_of_fields ?_ ?_ ?_).symm
  · rw [opcField_and, opcField_packFields, opcField_packFields]
  · rw [imm16Field_and, imm16Field_packFields, imm16Field_packFields]
  · rw [imm8Field_and, imm8Field_packFields, imm8Field_packFields]

/-- The fields of each mask of R37: the opcode, and the fields that must be 0. -/
def maskFields : Instr → U16 × Byte
  | .crcStep _ _ => (0, 0)
  | .crcInit => (0xFFFF, 0xFF)
  | .crcLoad _ => (0, 0xFF)
  | .crcAcc _ => (0xFFFF, 0)
  | .crcRead => (0xFFFF, 0xFF)
  | .prsByte _ => (0xFFFF, 0)
  | .prsReset => (0xFFFF, 0xFF)

theorem maskBits_eq_packFields (i : Instr) : i.maskBits = packFields 0xFF (maskFields i).1 (maskFields i).2 := by
  cases i <;> simp only [Instr.maskBits, maskFields] <;> decide

/-- The word of a command is accepted by its row: the mask covers the opcode and fields that are 0. -/
theorem encode_and_maskBits (i : Instr) : encode i &&& i.maskBits = i.matchBits := by
  cases i <;> rw [maskBits_eq_packFields, encode, packFields_and] <;>
    simp only [maskFields, Instr.matchBits, BitVec.ofNat_eq_ofNat, BitVec.and_zero] <;> decide

/-- A word that decodes to a command is accepted by the command's row. -/
theorem and_maskBits_of_decode {w : Word} {i : Instr} (h : decode w = .ok i) : w &&& i.maskBits = i.matchBits :=
  encode_of_decode h ▸ encode_and_maskBits i

/-- The words of R37's row for `PRS.BYTE`. -/
theorem decode_of_prsByte_row {w : Word} (h : w &&& 0xFFFFFF00 = 0x10000000) :
    decode w = .ok (.prsByte (imm8Field w)) :=
  decode_eq_ok_iff.mpr
    (packFields_eq_of_fields (field_of_covered h (by decide)) (field_of_covered h (by decide)) rfl)

/-- The row of a command without operands accepts one word. -/
theorem decode_iff_of_full_mask {w bits : Word} {i : Instr} (h : encode i = bits) :
    decode w = .ok i ↔ w &&& 0xFFFFFFFF = bits := by
  have hmask : w &&& 0xFFFFFFFF = w := BitVec.and_allOnes
  rw [decode_eq_ok_iff, h, hmask, eq_comm]

/-- Settles O4: a decoded word is its command's word, which its row accepts, and a word that a row accepts has the
fields that the row fixes. -/
theorem matchAndMaskDecideTheCommand : Obligations.MatchAndMaskDecideTheCommand := fun _ =>
  ⟨⟨fun ⟨_, _, h⟩ => and_maskBits_of_decode h, fun h => ⟨_, _, decode_of_crcStep_row h⟩⟩,
    decode_iff_of_full_mask (by decide),
    ⟨fun ⟨_, h⟩ => and_maskBits_of_decode h, fun h => ⟨_, decode_of_crcLoad_row h⟩⟩,
    ⟨fun ⟨_, h⟩ => and_maskBits_of_decode h, fun h => ⟨_, decode_of_crcAcc_row h⟩⟩,
    decode_iff_of_full_mask (by decide),
    ⟨fun ⟨_, h⟩ => and_maskBits_of_decode h, fun h => ⟨_, decode_of_prsByte_row h⟩⟩,
    decode_iff_of_full_mask (by decide)⟩

/-- Settles O2: the decoder reads back the opcode and each operand's field, and the fields it checks are packed as 0. -/
theorem decodeOfEncodeIsTheCommand : Obligations.DecodeOfEncodeIsTheCommand := decode_encode

/-- Settles O1: seven of the words are packed from their fields, and two break R38's two clauses. -/
theorem decodesWordsWrittenFromTheTable : Obligations.DecodesWordsWrittenFromTheTable :=
  ⟨decode_encode (.crcStep 0xFFFF 0x31), decode_encode .crcInit, decode_encode (.crcLoad 0xC29B),
    decode_encode (.crcAcc 0x09), decode_encode .crcRead, decode_encode (.prsByte 0xFE), decode_encode .prsReset,
    decode_eq_nonzero_iff.mpr (by decide), decode_eq_unassigned_iff.mpr (by decide)⟩

end Sys2Proof

namespace Sys2Proof.Machine

/-! ### The assembler. -/

/-- The assembler refuses exactly the lines that are not well formed. -/
theorem assembleLine_eq_none_iff (line : SourceLine) : assembleLine line = none ↔ line.wellFormed = false := by
  unfold assembleLine expandLine
  cases line.wellFormed with
  | false => simp
  | true => cases line <;> simp

/-- A line with words is well formed. -/
theorem wellFormed_of_assembleLine {line : SourceLine} {ws : List Word} (h : assembleLine line = some ws) :
    line.wellFormed = true := by
  refine Decidable.byContradiction fun hwf => ?_
  rw [(assembleLine_eq_none_iff line).mpr (eq_false_of_ne_true hwf)] at h
  cases h

/-- The words of a line decode to the commands it expands to, and are those commands' words as numbers. -/
theorem map_assembleLine {line : SourceLine} {is : List Instr} {ws : List Word}
    (hwf : line.wellFormed = true → expandLine line = some is) (h : assembleLine line = some ws) :
    ws.map BitVec.toNat = is.map (fun i => (encode i).toNat) ∧ ws.map decode = is.map .ok := by
  rw [assembleLine, hwf (wellFormed_of_assembleLine h)] at h
  cases h
  simp [decode_encode]

theorem operandsFit_nil_iff (ops : List Nat) : operandsFit [] ops = true ↔ ops = [] := by
  cases ops <;> simp [operandsFit]

/-- One more field: the operand there fits it, or is absent and counts as 0 (log 14). -/
theorem operandsFit_cons_iff (width : Nat) (widths ops : List Nat) :
    operandsFit (width :: widths) ops = true ↔
      operandAt ops 0 < 2 ^ width ∧ operandsFit widths ops.tail = true := by
  cases ops with
  | nil => exact iff_of_true rfl ⟨Nat.two_pow_pos width, by rw [List.tail_nil, operandsFit]⟩
  | cons v vs => simp [operandsFit, operandAt]

theorem operandAt_tail (ops : List Nat) (k : Nat) : operandAt ops.tail k = operandAt ops (k + 1) := by
  simp [operandAt]

theorem operandsFit_one_iff (width : Nat) (ops : List Nat) :
    operandsFit [width] ops = true ↔ ops.length ≤ 1 ∧ operandAt ops 0 < 2 ^ width := by
  rw [operandsFit_cons_iff, operandsFit_nil_iff, ← List.length_eq_zero_iff, List.length_tail]
  omega

theorem operandsFit_two_iff (width width' : Nat) (ops : List Nat) :
    operandsFit [width, width'] ops = true ↔
      ops.length ≤ 2 ∧ operandAt ops 0 < 2 ^ width ∧ operandAt ops 1 < 2 ^ width' := by
  rw [operandsFit_cons_iff, operandsFit_one_iff, operandAt_tail, List.length_tail, Nat.zero_add]
  omega

/-- A command line is refused where its operands do not fit, and otherwise gives the word of its command. -/
theorem assembleLine_command (name : Mnemonic) (ops : List Nat) (ws : List Word) :
    (assembleLine (.command name ops) = none ↔ ¬ operandsFit name.operandWidths ops = true) ∧
    (assembleLine (.command name ops) = some ws → operandsFit name.operandWidths ops = true ∧
      ws.map BitVec.toNat = [(encode (commandOf name ops)).toNat] ∧ ws.map decode = [.ok (commandOf name ops)]) :=
  ⟨by rw [assembleLine_eq_none_iff, SourceLine.wellFormed, Bool.not_eq_true],
    fun h => ⟨wellFormed_of_assembleLine h,
      map_assembleLine (is := [commandOf name ops]) (fun hwf => by rw [expandLine, hwf]; rfl) h⟩⟩

/-- The number of a packed word whose operands are given as numbers that fit (R42). -/
theorem toNat_packFields_ofNat (opc : Byte) {x y : Nat} (hx : x < 2 ^ 16) (hy : y < 2 ^ 8) :
    (packFields opc (BitVec.ofNat 16 x) (BitVec.ofNat 8 y)).toNat = opc.toNat * 2 ^ 24 + x * 2 ^ 8 + y := by
  rw [toNat_packFields, BitVec.toNat_ofNat, BitVec.toNat_ofNat, Nat.mod_eq_of_lt hx, Nat.mod_eq_of_lt hy]

theorem toNat_packFields_byte (opc : Byte) {y : Nat} (hy : y < 2 ^ 8) :
    (packFields opc 0 (BitVec.ofNat 8 y)).toNat = opc.toNat * 2 ^ 24 + y := by
  rw [toNat_packFields, BitVec.toNat_ofNat, Nat.mod_eq_of_lt hy]
  simp

/-- The lines of the three commands that take no operand. -/
theorem assembleLine_without_operands {name : Mnemonic} {i : Instr} {n : Nat} (ops : List Nat) (ws : List Word)
    (hwidths : name.operandWidths = []) (hi : commandOf name ops = i) (hn : (encode i).toNat = n) :
    (assembleLine (.command name ops) = none ↔ ops ≠ []) ∧
    (assembleLine (.command name ops) = some ws → ws.map BitVec.toNat = [n] ∧ ws.map decode = [.ok i]) := by
  have hline := assembleLine_command name ops ws
  rw [hwidths, operandsFit_nil_iff, hi, hn] at hline
  exact ⟨hline.1, fun h => (hline.2 h).2⟩

/-- The lines of the three commands that take one operand, in a field of this width whose place gives it this weight. -/
theorem assembleLine_with_operand {name : Mnemonic} {i : Instr} {opc width weight : Nat} (ops : List Nat)
    (ws : List Word) (hwidths : name.operandWidths = [width]) (hi : commandOf name ops = i)
    (hn : operandAt ops 0 < 2 ^ width → (encode i).toNat = opc * 2 ^ 24 + operandAt ops 0 * weight) :
    (assembleLine (.command name ops) = none ↔ 1 < ops.length ∨ 2 ^ width - 1 < operandAt ops 0) ∧
    (assembleLine (.command name ops) = some ws →
      ws.map BitVec.toNat = [opc * 2 ^ 24 + operandAt ops 0 * weight] ∧ ws.map decode = [.ok i]) := by
  have hline := assembleLine_command name ops ws
  rw [hwidths, operandsFit_one_iff, hi] at hline
  refine ⟨hline.1.trans (by have := Nat.two_pow_pos width; omega), fun h => ?_⟩
  obtain ⟨⟨-, hfit⟩, hnum, hdec⟩ := hline.2 h
  exact ⟨hn hfit ▸ hnum, hdec⟩

/-- `CRC.STEP` lines (R42). -/
theorem assembleLine_crcStep (ops : List Nat) (ws : List Word) :
    (assembleLine (.command .crcStep ops) = none ↔
      2 < ops.length ∨ 0xFFFF < operandAt ops 0 ∨ 0xFF < operandAt ops 1) ∧
    (assembleLine (.command .crcStep ops) = some ws →
      ws.map BitVec.toNat = [0x01 * 2 ^ 24 + operandAt ops 0 * 2 ^ 8 + operandAt ops 1] ∧
      ws.map decode = [.ok (.crcStep (BitVec.ofNat 16 (operandAt ops 0)) (BitVec.ofNat 8 (operandAt ops 1)))]) := by
  have hline := assembleLine_command .crcStep ops ws
  rw [Mnemonic.operandWidths, operandsFit_two_iff, commandOf] at hline
  refine ⟨hline.1.trans (by omega), fun h => ?_⟩
  obtain ⟨⟨-, hfirst, hsecond⟩, hnum, hdec⟩ := hline.2 h
  rw [encode, toNat_packFields_ofNat _ hfirst hsecond] at hnum
  exact ⟨hnum, hdec⟩

/-- A pseudo-instruction gives one word of its command for each operand, and is refused where one is above 0xFF (R43,
R44). -/
theorem assembleLine_pseudo {line : SourceLine} {mk : Byte → Instr} {opc : Byte} (ops : List Nat) (ws : List Word)
    (hwf : line.wellFormed = true ↔ ∀ b ∈ ops, b < 2 ^ 8)
    (hexpand : line.wellFormed = true → expandLine line = some (ops.map (fun b => mk (BitVec.ofNat 8 b))))
    (henc : ∀ b, encode (mk b) = packFields opc 0 b) :
    (assembleLine line = none ↔ ∃ b ∈ ops, 0xFF < b) ∧
    (assembleLine line = some ws →
      ws.map BitVec.toNat = ops.map (opc.toNat * 2 ^ 24 + ·) ∧
      ws.map decode = ops.map (fun b => .ok (mk (BitVec.ofNat 8 b)))) := by
  refine ⟨?_, fun h => ?_⟩
  · rw [assembleLine_eq_none_iff, ← Bool.not_eq_true, hwf]
    simp [Nat.succ_le_iff]
  · obtain ⟨hnum, hdec⟩ := map_assembleLine hexpand h
    have hfit := hwf.mp (wellFormed_of_assembleLine h)
    rw [List.map_map] at hnum hdec
    refine ⟨hnum.trans (List.map_congr_left fun b hb => ?_), hdec⟩
    rw [Function.comp_apply, henc]
    exact toNat_packFields_byte opc (hfit b hb)

/-- Settles O6: each form of line by its own lemma; the operands' widths decide which lines are refused, and the packed
fields give the number. -/
theorem assembledWordsDecodeToTheLinesCommands : Obligations.AssembledWordsDecodeToTheLinesCommands := by
  intro ops ws
  have step := assembleLine_crcStep ops ws
  have init := assembleLine_without_operands (name := .crcInit) ops ws rfl rfl (toNat_packFields 0x02 0 0)
  have load := assembleLine_with_operand (name := .crcLoad) (opc := 0x03) (weight := 2 ^ 8) ops ws rfl rfl
    (fun h => toNat_packFields_ofNat (y := 0) 0x03 h (by decide))
  have acc := assembleLine_with_operand (name := .crcAcc) (opc := 0x04) (weight := 1) ops ws rfl rfl
    (fun h => (Nat.mul_one _).symm ▸ toNat_packFields_byte 0x04 h)
  have read := assembleLine_without_operands (name := .crcRead) ops ws rfl rfl (toNat_packFields 0x05 0 0)
  have byte := assembleLine_with_operand (name := .prsByte) (opc := 0x10) (weight := 1) ops ws rfl rfl
    (fun h => (Nat.mul_one _).symm ▸ toNat_packFields_byte 0x10 h)
  have reset := assembleLine_without_operands (name := .prsReset) ops ws rfl rfl (toNat_packFields 0x11 0 0)
  have bytes := assembleLine_pseudo (line := .prsBytes ops) (mk := .prsByte) ops ws (by simp [SourceLine.wellFormed])
    (fun hwf => by rw [expandLine, hwf]; rfl) (fun _ => rfl)
  have accs := assembleLine_pseudo (line := .crcAccs ops) (mk := .crcAcc) ops ws
    (by simp [SourceLine.wellFormed, Nat.lt_succ_iff]) (fun hwf => by rw [expandLine, hwf]; rfl) (fun _ => rfl)
  simp only [Nat.mul_one] at acc byte
  exact ⟨step.1, step.2, init.1, init.2, load.1, load.2, acc.1, acc.2, read.1, read.2, byte.1, byte.2, reset.1, reset.2,
    bytes.1, bytes.2, accs.1, accs.2⟩

end Sys2Proof.Machine
end

section
/-! Frame assembly (spec/41_parser.md section 3): when there is a frame, and its fields. -/

namespace Sys2Proof.Machine

variable {M : Type} {p : Parser} {b : Byte} {regs : List (Registry M)}

/-- The message ID is there exactly when the marker is known and all of the frame's message-ID bytes are (R85). -/
theorem Parser.messageId_eq_none_iff (p : Parser) : p.messageId = none ↔ p.ver = none ∨ p.mid.length ≠ p.need := by
  unfold messageId need
  split
  · simp [*]
  · simp [*]
  · rename_i h1 h2
    refine iff_of_true rfl (Classical.or_iff_not_imp_left.mpr fun hver hlen => ?_)
    obtain ⟨v, hv⟩ := Option.ne_none_iff_exists'.mp hver
    cases v with
    | v1 =>
      obtain ⟨m, hm⟩ := List.length_eq_one_iff.mp (hlen.trans (by simp [hv]))
      exact h1 m hv hm
    | v2 =>
      have hlen : p.mid.length = 3 := hlen.trans (by simp [hv])
      match hm : p.mid, hlen with
      | [m0, m1, m2], _ => exact h2 m0 m1 m2 hv hm

/-- Assembly gives a frame exactly when every field of its version is there, and the frame is made of them (R79 to
R83). -/
theorem Parser.assemble_eq_some_iff {f : FrameRecord M} :
    p.assemble regs = some f ↔ ∃ len seq sys comp lo hi id,
      p.len = some len ∧ p.seq = some seq ∧ p.sys = some sys ∧ p.comp = some comp ∧ p.cklo = some lo ∧
      p.ckhi = some hi ∧ p.messageId = some id ∧
      ((p.ver = some .v1 ∧
        f = .v1 seq sys comp id (recognise regs id (p.payload len) len p.hcrc).1 (checksumField lo hi)
          (recognise regs id (p.payload len) len p.hcrc).2) ∨
      (p.ver = some .v2 ∧ ∃ incompat compat, p.incompat = some incompat ∧ p.compat = some compat ∧
        f = .v2 incompat compat seq sys comp id (recognise regs id (p.payload len) len p.hcrc).1 (checksumField lo hi)
          (recognise regs id (p.payload len) len p.hcrc).2)) := by
  constructor
  · intro h
    obtain ⟨ver, hver, h⟩ := Option.bind_eq_some_iff.mp h
    obtain ⟨len, hlen, h⟩ := Option.bind_eq_some_iff.mp h
    obtain ⟨seq, hseq, h⟩ := Option.bind_eq_some_iff.mp h
    obtain ⟨sys, hsys, h⟩ := Option.bind_eq_some_iff.mp h
    obtain ⟨comp, hcomp, h⟩ := Option.bind_eq_some_iff.mp h
    obtain ⟨lo, hlo, h⟩ := Option.bind_eq_some_iff.mp h
    obtain ⟨hi, hhi, h⟩ := Option.bind_eq_some_iff.mp h
    obtain ⟨id, hid, h⟩ := Option.bind_eq_some_iff.mp h
    refine ⟨len, seq, sys, comp, lo, hi, id, hlen, hseq, hsys, hcomp, hlo, hhi, hid, ?_⟩
    cases ver with
    | v1 => exact .inl ⟨hver, (Option.some.inj h).symm⟩
    | v2 =>
      obtain ⟨incompat, hincompat, h⟩ := Option.bind_eq_some_iff.mp h
      obtain ⟨compat, hcompat, h⟩ := Option.bind_eq_some_iff.mp h
      exact .inr ⟨hver, incompat, compat, hincompat, hcompat, (Option.some.inj h).symm⟩
  · rintro ⟨len, seq, sys, comp, lo, hi, id, hlen, hseq, hsys, hcomp, hlo, hhi, hid, hver⟩
    rcases hver with ⟨hver, rfl⟩ | ⟨hver, _, _, hincompat, hcompat, rfl⟩
    · simp [assemble, *]
    · simp [assemble, *]

/-- R85, with the two checksum bytes there: what must be missing for assembly to fail. -/
def Parser.MissesField (p : Parser) : Prop :=
  p.ver = none ∨ p.len = none ∨ p.seq = none ∨ p.sys = none ∨ p.comp = none ∨ p.mid.length ≠ p.need ∨
    (p.ver = some .v2 ∧ (p.incompat = none ∨ p.compat = none))

/-- A record that misses nothing assembles, whatever the registries are. -/
theorem Parser.exists_assemble {lo hi : Byte} (h : ¬ p.MissesField) (hlo : p.cklo = some lo) (hhi : p.ckhi = some hi)
    (regs : List (Registry M)) : ∃ f, p.assemble regs = some f := by
  simp only [MissesField, not_or, not_and] at h
  obtain ⟨hver, hlen, hseq, hsys, hcomp, hmid, hflags⟩ := h
  have hid : p.messageId ≠ none := fun e => (p.messageId_eq_none_iff.mp e).elim hver hmid
  obtain ⟨id, hid⟩ := Option.ne_none_iff_exists'.mp hid
  obtain ⟨len, hlen⟩ := Option.ne_none_iff_exists'.mp hlen
  obtain ⟨seq, hseq⟩ := Option.ne_none_iff_exists'.mp hseq
  obtain ⟨sys, hsys⟩ := Option.ne_none_iff_exists'.mp hsys
  obtain ⟨comp, hcomp⟩ := Option.ne_none_iff_exists'.mp hcomp
  obtain ⟨ver, hver⟩ := Option.ne_none_iff_exists'.mp hver
  cases ver with
  | v1 =>
    exact ⟨_, assemble_eq_some_iff.mpr ⟨_, _, _, _, _, _, _, hlen, hseq, hsys, hcomp, hlo, hhi, hid,
      .inl ⟨hver, rfl⟩⟩⟩
  | v2 =>
    obtain ⟨hincompat, hcompat⟩ := hflags hver
    obtain ⟨incompat, hincompat⟩ := Option.ne_none_iff_exists'.mp hincompat
    obtain ⟨compat, hcompat⟩ := Option.ne_none_iff_exists'.mp hcompat
    exact ⟨_, assemble_eq_some_iff.mpr ⟨_, _, _, _, _, _, _, hlen, hseq, hsys, hcomp, hlo, hhi, hid,
      .inr ⟨hver, _, _, hincompat, hcompat, rfl⟩⟩⟩

/-- A record that assembles misses nothing. -/
theorem Parser.not_missesField {f : FrameRecord M} (h : p.assemble regs = some f) : ¬ p.MissesField := by
  obtain ⟨len, seq, sys, comp, lo, hi, id, hlen, hseq, hsys, hcomp, -, -, hid, hver⟩ := assemble_eq_some_iff.mp h
  have hmid := mt (p.messageId_eq_none_iff.mpr) (by simp [hid])
  rcases hver with ⟨hver, -⟩ | ⟨hver, _, _, hincompat, hcompat, -⟩ <;> simp_all [MissesField]

theorem Parser.assemble_eq_none_iff {lo hi : Byte} (hlo : p.cklo = some lo) (hhi : p.ckhi = some hi) :
    p.assemble regs = none ↔ p.MissesField := by
  constructor
  · intro h
    refine Classical.byContradiction fun hmiss => ?_
    obtain ⟨f, hf⟩ := exists_assemble hmiss hlo hhi regs
    simp [hf] at h
  · intro hmiss
    exact Option.eq_none_iff_forall_ne_some.mpr fun f h => not_missesField h hmiss

/-! ### Registries. -/

/-- Registries that decline are passed over (R80). -/
theorem queryRegistries_append_of_declined {asked : List (Registry M)} {id : U24} {payload : Bytes} {l : Byte} {h : U16}
    (hasked : ∀ r ∈ asked, r id payload l h = none) (rest : List (Registry M)) :
    queryRegistries id payload l h (asked ++ rest) = queryRegistries id payload l h rest := by
  induction asked with
  | nil => rfl
  | cons reg asked ih =>
    rw [List.cons_append, queryRegistries, hasked reg List.mem_cons_self]
    exact ih fun r hr => hasked r (List.mem_cons_of_mem reg hr)

theorem queryRegistries_of_declined {asked : List (Registry M)} {id : U24} {payload : Bytes} {l : Byte} {h : U16}
    (hasked : ∀ r ∈ asked, r id payload l h = none) : queryRegistries id payload l h asked = none := by
  simpa [queryRegistries] using queryRegistries_append_of_declined hasked []

/-- Settles O34: registries that decline are passed over, and one that answers ends the query. -/
theorem firstAnsweringRegistryWins : Obligations.FirstAnsweringRegistryWins := by
  intro M asked later reg id payload l h hasked
  refine ⟨queryRegistries_of_declined hasked, fun answer hreg => ?_⟩
  rw [queryRegistries_append_of_declined hasked, queryRegistries, hreg]

/-- The fallback (R81). -/
theorem recognise_of_declined {id : U24} {payload : Bytes} {l : Byte} {h : U16}
    (hregs : ∀ r ∈ regs, r id payload l h = none) : recognise regs id payload l h = (.unsupported payload, h) := by
  rw [recognise, queryRegistries_of_declined hregs]

theorem FrameRecord.valid_iff (f : FrameRecord M) : f.valid = true ↔ f.expected = f.actual := beq_iff_eq

/-- The four fields a frame of either version takes from assembly (R79 to R83). -/
theorem Parser.fields_of_assemble {f : FrameRecord M} (h : p.assemble regs = some f) :
    ∃ len lo hi id, p.len = some len ∧ p.cklo = some lo ∧ p.ckhi = some hi ∧ p.messageId = some id ∧
      f.msgId = id ∧ f.message = (recognise regs id (p.payload len) len p.hcrc).1 ∧
      f.expected = checksumField lo hi ∧ f.actual = (recognise regs id (p.payload len) len p.hcrc).2 := by
  obtain ⟨len, _, _, _, lo, hi, id, hlen, -, -, -, hlo, hhi, hid, ⟨-, rfl⟩ | ⟨-, _, _, -, -, rfl⟩⟩ :=
    assemble_eq_some_iff.mp h
  · exact ⟨len, lo, hi, id, hlen, hlo, hhi, hid, rfl, rfl, rfl, rfl⟩
  · exact ⟨len, lo, hi, id, hlen, hlo, hhi, hid, rfl, rfl, rfl, rfl⟩

/-- Settles O35: the frame's fields are those of the fallback. -/
theorem unrecognisedFrameReportsTheHeaderCrc : Obligations.UnrecognisedFrameReportsTheHeaderCrc := by
  intro M regs p l id f hl hid hregs hf
  obtain ⟨len, lo, hi, id', hlen, -, -, hid', hmsgId, hmessage, -, hactual⟩ := Parser.fields_of_assemble hf
  obtain rfl := Option.some.inj (hl.symm.trans hlen)
  obtain rfl := Option.some.inj (hid.symm.trans hid')
  rw [Parser.payload, Memory.firstBytes, recognise_of_declined hregs] at hmessage hactual
  exact ⟨hmsgId, hmessage, hactual, by rw [f.valid_iff, hactual]⟩

/-- The length byte of a payload that fits it (R46, R47). -/
theorem toNat_lengthByte {payload : Bytes} (h : payload.length ≤ 255) :
    (lengthByte payload).toNat = payload.length := by
  rw [lengthByte, BitVec.toNat_ofNat, Nat.mod_eq_of_lt (by omega)]

/-- A schema declines a message ID that none of its entries has (R86). -/
theorem schemaRegistry_of_absent {entries : List (SchemaEntry M)} {id : U24} (h : ∀ e ∈ entries, e.msgId ≠ id)
    (payload : Bytes) (declared : Byte) (headerCrc : U16) :
    schemaRegistry entries id payload declared headerCrc = none := by
  have hfind : entries.find? (fun e => e.msgId == id) = none := by simpa using h
  rw [schemaRegistry, hfind]

/-- A schema answers with the first entry that has the message ID (R86; log 16). -/
theorem schemaRegistry_of_first {before after : List (SchemaEntry M)} {e : SchemaEntry M}
    (h : ∀ d ∈ before, d.msgId ≠ e.msgId) (payload : Bytes) (declared : Byte) (headerCrc : U16) :
    schemaRegistry (before ++ e :: after) e.msgId payload declared headerCrc =
      some (e.decode payload declared, acc (fold headerCrc (payload.take (min declared.toNat e.nel))) e.crcExtra) := by
  have hbefore : before.find? (fun d => d.msgId == e.msgId) = none := by simpa using h
  have hfind : (before ++ e :: after).find? (fun d => d.msgId == e.msgId) = some e := by
    simp [List.find?_append, hbefore]
  rw [schemaRegistry, hfind]

/-- Settles O36: the declared length of a payload that fits the length byte is its length, so the schema folds the
bytes that the full-frame checksum folds. -/
theorem schemaRegistryContinuesTheHeaderChecksum : Obligations.SchemaRegistryContinuesTheHeaderChecksum := by
  rintro M entries id header payload hlen
  refine ⟨fun habsent => schemaRegistry_of_absent habsent payload _ _, ?_⟩
  rintro before after e rfl hbefore rfl
  rw [schemaRegistry_of_first hbefore, toNat_lengthByte hlen]
  rfl

/-! ### The second checksum byte. -/

/-- The second checksum byte of a record that assembles (R78, R84). -/
theorem execWith_prsByte_frame {cfg : Params M} {s : State M} {lo : Byte} {f : FrameRecord M}
    (hst : s.prs.st = .awaitChecksum) (hlo : s.prs.cklo = some lo)
    (hf : ({ s.prs with ckhi := some b } : Parser).assemble cfg.registries = some f) :
    execWith cfg (.prsByte b) s = .next ((s.setParser Parser.reset).respond (.frame f)) := by
  have hc := Parser.consume_checksum (cfg := cfg) (b := b) hst
  rw [Parser.onChecksum_second hlo, hf] at hc
  exact execWith_prsByte_of_consume hc

/-- The second checksum byte of a record that does not (R84, R85). -/
theorem execWith_prsByte_no_frame {cfg : Params M} {s : State M} {lo : Byte}
    (hst : s.prs.st = .awaitChecksum) (hlo : s.prs.cklo = some lo)
    (hf : ({ s.prs with ckhi := some b } : Parser).assemble cfg.registries = none) :
    execWith cfg (.prsByte b) s = .next ((s.setParser Parser.reset).respond .none) := by
  have hc := Parser.consume_checksum (cfg := cfg) (b := b) hst
  rw [Parser.onChecksum_second hlo, hf] at hc
  exact execWith_prsByte_of_consume hc

/-- Settles O31: a v1 record with every field assembles. -/
theorem secondChecksumByteEmitsTheV1Frame : Obligations.SecondChecksumByteEmitsTheV1Frame := by
  intro s l seq sys comp m lo b hst hver hlen hseq hsys hcomp hmid hlo
  have hid : s.prs.messageId = some (messageIdV1 m) := by simp [Parser.messageId, hver, hmid]
  rw [← execWith_params]
  exact execWith_prsByte_frame hst hlo (Parser.assemble_eq_some_iff.mpr
    ⟨_, _, _, _, _, _, _, hlen, hseq, hsys, hcomp, hlo, rfl, hid, .inl ⟨hver, rfl⟩⟩)

/-- Settles O32: a v2 record with every field assembles. -/
theorem secondChecksumByteEmitsTheV2Frame : Obligations.SecondChecksumByteEmitsTheV2Frame := by
  intro s l incompat compat seq sys comp m0 m1 m2 lo b hst hver hlen hincompat hcompat hseq hsys hcomp hmid hlo
  have hid : s.prs.messageId = some (messageIdV2 m0 m1 m2) := by simp [Parser.messageId, hver, hmid]
  rw [← execWith_params]
  exact execWith_prsByte_frame hst hlo (Parser.assemble_eq_some_iff.mpr
    ⟨_, _, _, _, _, _, _, hlen, hseq, hsys, hcomp, hlo, rfl, hid, .inr ⟨hver, _, _, hincompat, hcompat, rfl⟩⟩)

/-- Settles O33: assembly fails exactly where a field is missing, and where it does not fail the response is a frame. -/
theorem missingFieldGivesNoFrameAndClears : Obligations.MissingFieldGivesNoFrameAndClears := by
  intro s b lo hst hlo
  rw [← execWith_params]
  show s.prs.MissesField ↔ _
  constructor
  · intro hmiss
    exact execWith_prsByte_no_frame hst hlo 
      ((Parser.assemble_eq_none_iff (p := { s.prs with ckhi := some b }) hlo rfl).mpr hmiss)
  · intro hnone
    refine Classical.byContradiction fun hmiss => ?_
    obtain ⟨f, hf⟩ := Parser.exists_assemble (p := { s.prs with ckhi := some b }) hmiss hlo rfl Config.params.registries
    rw [execWith_prsByte_frame hst hlo hf] at hnone
    simp [State.respond, State.setParser] at hnone

/-- Under the invariant no field is missing once the checksum is awaited (R88). -/
theorem Parser.Inv.not_missesField (h : p.Inv) (hst : p.st = .awaitChecksum) : ¬ p.MissesField := by
  have hcode : p.st.code = 9 := by rw [hst]; rfl
  have hmid := h.midWhole (by omega)
  have hver := h.markerKnown (by simp [hst])
  simp [MissesField, hmid, hver, ← Option.not_isSome_iff_eq_none, h.lenFilled, h.seqFilled, h.sysFilled, h.compFilled,
    h.incompatFilled, h.compatFilled, hcode]

/-- Settles O49: under the invariant no field is missing in AWAIT_CHECKSUM. -/
theorem defensiveFailureIsUnreachable : Obligations.DefensiveFailureIsUnreachable := by
  intro s b h hst hcklo
  obtain ⟨lo, hlo⟩ := Option.ne_none_iff_exists'.mp hcklo
  obtain ⟨f, hf⟩ := Parser.exists_assemble (p := { s.prs with ckhi := some b }) (h.not_missesField hst) hlo rfl
    Config.params.registries
  exact ⟨f, execWith_params (.prsByte b) s ▸ execWith_prsByte_frame hst hlo hf⟩

/-- Settles O40: only `PRS.BYTE` can answer a frame, of all state rules only that of the second checksum byte does, and
the frame's `expected` is read from the two checksum bytes. -/
theorem framesComeOnlyFromTheSecondChecksumByte : Obligations.FramesComeOnlyFromTheSecondChecksumByte := by
  intro i s t f h hout
  rw [← execWith_params] at h
  obtain ⟨a, p, r, rfl, hi⟩ := execWith_cases h
  obtain rfl : r = .frame f := by simpa using hout
  cases i with
  | prsByte b =>
    obtain ⟨rfl, hc⟩ := hi
    rcases Parser.consume_response hc with hr | ⟨hst, -, rfl, f', hr, hf⟩
    · cases hr
    · cases hr
      obtain ⟨_, lo, hi, _, -, hlo, hhi, -, -, -, hexpected, -⟩ := Parser.fields_of_assemble hf
      cases hhi
      exact ⟨b, lo, rfl, hst, hlo, hexpected, rfl, rfl⟩
  | _ => exact nomatch hi.2.2

end Sys2Proof.Machine
end

section
/-! Checksums of strings and of payloads with extension bytes, and the v2 trim (spec/40_crc.md rules R57, R66,
30_encoding.md rules R44, R53). -/

namespace Sys2Proof.Machine

/-- Settles O16: the checksum folds the first `NEL` bytes, and the byte replaced is not one of them. -/
theorem extensionBytesDoNotEnterTheChecksum : Obligations.ExtensionBytesDoNotEnterTheChecksum := by
  intro header payload nel i crcExtra b hi
  rw [frameChecksum_eq, frameChecksum_eq, List.take_set_of_le hi]

/-- A string's last code point answers the fold of the whole string (R44, R63). -/
theorem runCommands_crcAccs_concat {M : Type} (cfg : Params M) (s : State M) (init : Bytes) (b : Byte) :
    ∃ responses, runCommands cfg (crcAccs (init ++ [b])) s = .next { s with
      acc := fold s.acc (init ++ [b])
      outbox := s.outbox ++ (responses ++ [.value (fold s.acc (init ++ [b]))]) } := by
  obtain ⟨responses, h⟩ := runCommands_crcAccs cfg init s
  refine ⟨responses, ?_⟩
  rw [crcAccs, List.map_append, ← crcAccs, runCommands_append h, fold_concat, ← List.append_assoc]
  rfl

/-- Settles O22: the empty string runs no command, and of another the last code point's response is the last. -/
theorem stringAccumulateFoldsEveryCodePoint : Obligations.StringAccumulateFoldsEveryCodePoint := by
  intro M cfg s codes
  rcases List.eq_nil_or_concat codes with rfl | ⟨init, b, rfl⟩
  · exact ⟨s, rfl, rfl, rfl, rfl, fun _ => rfl, fun h => absurd rfl h⟩
  · rw [List.concat_eq_append]
    obtain ⟨responses, h⟩ := runCommands_crcAccs_concat cfg s init b
    refine ⟨_, h, rfl, rfl, rfl, fun e => by simp at e, fun _ => ?_⟩
    rw [State.responsesSince_append _ _ _ rfl]
    simp [lastValue]

/-- A byte is trimmed where it is zero and nothing after it stays. -/
theorem trimTrailingZeros_cons (b : Byte) (rest : Bytes) :
    trimTrailingZeros (b :: rest) =
      if trimTrailingZeros rest = [] ∧ b = 0x00 then [] else b :: trimTrailingZeros rest := by
  rw [trimTrailingZeros]
  cases trimTrailingZeros rest with
  | nil => simp only [true_and]
  | cons c kept => simp

/-- Settles O56, by induction on the payload from its end. -/
theorem trimRemovesExactlyTheTrailingZeros : Obligations.TrimRemovesExactlyTheTrailingZeros := by
  intro payload
  induction payload with
  | nil => exact ⟨0, rfl, nofun⟩
  | cons b rest ih =>
    obtain ⟨n, hrest, hlast⟩ := ih
    rw [trimTrailingZeros_cons]
    split
    · rename_i hz
      rw [hz.1, List.nil_append] at hrest
      exact ⟨n + 1, by rw [hz.2, List.replicate_succ, ← hrest]; rfl, nofun⟩
    · rename_i hkept
      refine ⟨n, congrArg (b :: ·) hrest, ?_⟩
      cases htrim : trimTrailingZeros rest with
      | nil => simpa [htrim] using hkept
      | cons c kept => simpa [htrim] using hlast

end Sys2Proof.Machine
end

section
/-! Whole frames on the wire (spec/30_encoding.md sections 4 to 6, 41_parser.md rule R89): noise, the bytes of a frame,
and the round trip. -/

namespace Sys2Proof.Machine

variable {M : Type} {cfg : Params M} {s : State M}

/-! ### Responses. -/

/-- The state with these responses given. -/
def State.answered (s : State M) (rs : List (Response M)) : State M := { s with outbox := s.outbox ++ rs }

theorem State.answered_answered (s : State M) (xs ys : List (Response M)) :
    (s.answered xs).answered ys = s.answered (xs ++ ys) := by
  simp [answered]

@[simp] theorem State.responsesSince_answered (s : State M) (rs : List (Response M)) :
    s.responsesSince (s.answered rs) = rs :=
  State.responsesSince_append _ _ _ rfl

/-- The responses to the bytes of a frame: `NONE` for each but the last, which gives the frame. -/
def frameResponses (n : Nat) (f : FrameRecord M) : List (Response M) := List.replicate n .none ++ [.frame f]

@[simp] theorem framesOf_frameResponses (n : Nat) (f : FrameRecord M) : framesOf (frameResponses n f) = [f] := by
  simp [frameResponses, framesOf]

theorem framesOf_answered_frameResponses (s : State M) (n : Nat) (f : FrameRecord M) :
    framesOf (s.responsesSince (s.answered (frameResponses n f))) = [f] := by
  rw [State.responsesSince_answered, framesOf_frameResponses]

/-! ### Bytes that are answered `NONE`. -/

/-- The bytes take the record from `p` to `q`, each answered `NONE`. -/
def Parser.Silent (cfg : Params M) : Bytes → Parser → Parser → Prop
  | [], p, q => p = q
  | b :: bs, p, q => ∃ p', p.consume cfg b = .ok (p', .none) ∧ Parser.Silent cfg bs p' q

/-- A run over such bytes. -/
theorem Parser.Silent.run {bs : Bytes} {q : Parser} (h : Parser.Silent cfg bs s.prs q) :
    runCommands cfg (prsBytes bs) s =
      .next { s with prs := q, outbox := s.outbox ++ List.replicate bs.length .none } := by
  induction bs generalizing s with
  | nil => obtain rfl : s.prs = q := h; simp
  | cons b bs ih =>
    obtain ⟨p, hb, hbs⟩ := h
    rw [runCommands_prsBytes_cons hb, ih (s := (s.setParser p).respond .none) hbs]
    simp [State.respond, State.setParser, List.replicate_succ]

/-- Noise in AWAIT_START leaves the record (R68, R89.1). -/
theorem Parser.silent_noise {p : Parser} {noise : Bytes} (hst : p.st = .awaitStart)
    (h : ∀ b ∈ noise, b ≠ 0xFE ∧ b ≠ 0xFD) : Parser.Silent cfg noise p p := by
  induction noise with
  | nil => rfl
  | cons b noise ih =>
    obtain ⟨h1, h2⟩ := h b List.mem_cons_self
    refine ⟨p, ?_, ih fun c hc => h c (List.mem_cons_of_mem b hc)⟩
    rw [consume_start hst, onStart_noise p h1 h2]

theorem runCommands_noise {noise : Bytes} (hst : s.prs.st = .awaitStart) (h : ∀ b ∈ noise, b ≠ 0xFE ∧ b ≠ 0xFD) :
    runCommands cfg (prsBytes noise) s = .next (s.answered (List.replicate noise.length .none)) :=
  (Parser.silent_noise hst h).run

/-- Settles O50: the record stays as it is. -/
theorem noiseBeforeAMarkerChangesNothing : Obligations.NoiseBeforeAMarkerChangesNothing :=
  fun _ _ _ _ hst h => runCommands_noise hst h

/-! ### The header of a frame. -/

/-- The record of a frame whose header has been read, waiting for its payload, or for its checksum if the declared
length is 0 (R75). -/
def Parser.afterHeader (ver : Version) (len : Byte) (incompat compat : Option Byte) (seq sys comp : Byte) (mid : Bytes)
    (hcrc : U16) : Parser :=
  { Parser.reset with
    st := if len = 0 then .awaitChecksum else .awaitPayload
    ver := some ver
    len := some len
    incompat := incompat
    compat := compat
    seq := some seq
    sys := some sys
    comp := some comp
    mid := mid
    hcrc := hcrc }

/-- After the last message-ID byte of any frame but an empty v2 frame that the parameter stops (R6, R75). -/
theorem Parser.afterMessageId_ok {p : Parser} {zl : V2ZeroLength} {len : Byte} (hlen : p.len = some len)
    (hzl : p.ver = some .v2 → zl = .skip ∨ len ≠ 0) :
    p.afterMessageId zl = .ok (if len = 0 then .awaitChecksum else .awaitPayload) := by
  simp only [afterMessageId, hlen, Option.some.injEq]
  split
  · rename_i hz
    refine if_neg fun ⟨hver, hfault⟩ => ?_
    rcases hzl hver with hskip | hne
    · exact nomatch hskip.symm.trans hfault
    · exact hne hz
  · rfl

/-- A message-ID byte before the last (R75). -/
theorem Parser.consume_messageId_more {p : Parser} {b : Byte} (hst : p.st = .awaitMessageId)
    (hmid : p.mid.length + 1 ≠ p.need) : p.consume cfg b = .ok (p.appendMessageId b, .none) := by
  rw [consume_messageId hst, onMessageId_more hmid, silently_ok]

/-- The last message-ID byte (R75). -/
theorem Parser.consume_messageId_last {p : Parser} {b len : Byte} (hst : p.st = .awaitMessageId)
    (hmid : p.mid.length + 1 = p.need) (hlen : p.len = some len)
    (hzl : p.ver = some .v2 → cfg.v2ZeroLength = .skip ∨ len ≠ 0) :
    p.consume cfg b =
      .ok ({ p.appendMessageId b with st := if len = 0 then .awaitChecksum else .awaitPayload }, .none) := by
  rw [consume_messageId hst, onMessageId_last_ok hmid (afterMessageId_ok hlen hzl), silently_ok]

theorem Parser.silent_headerV1 (len seq sys comp m : Byte) :
    Parser.Silent cfg (0xFE :: headerV1 len seq sys comp m) Parser.reset
      (afterHeader .v1 len none none seq sys comp [m] (fold 0xFFFF (headerV1 len seq sys comp m))) :=
  ⟨_, consume_start rfl, _, consume_length rfl, _, consume_sequence rfl, _, consume_systemId rfl, _,
    consume_componentId rfl, _, consume_messageId_last rfl rfl rfl (show some Version.v1 = some .v2 → _ from nofun),
    rfl⟩

theorem Parser.silent_headerV2 (len incompat compat seq sys comp m0 m1 m2 : Byte)
    (hzl : cfg.v2ZeroLength = .skip ∨ len ≠ 0) :
    Parser.Silent cfg (0xFD :: headerV2 len incompat compat seq sys comp [m0, m1, m2]) Parser.reset
      (afterHeader .v2 len (some incompat) (some compat) seq sys comp [m0, m1, m2]
        (fold 0xFFFF (headerV2 len incompat compat seq sys comp [m0, m1, m2]))) :=
  ⟨_, consume_start rfl, _, consume_length rfl, _, consume_incompatFlags rfl, _, consume_compatFlags rfl, _,
    consume_sequence rfl, _, consume_systemId rfl, _, consume_componentId rfl, _,
    consume_messageId_more rfl (show 0 + 1 ≠ 3 by decide), _, consume_messageId_more rfl (show 1 + 1 ≠ 3 by decide), _,
    consume_messageId_last rfl rfl rfl fun _ => hzl, rfl⟩

/-! ### The bytes of a frame. -/

/-- A header that is read silently, its payload and two checksum bytes give one frame, that of the record they fill. -/
theorem runCommands_frameBytes {marker : Byte} {header payload : Bytes} {ver : Version} {incompat compat : Option Byte}
    {seq sys comp lo hi : Byte} {mid : Bytes} {hcrc : U16} {f : FrameRecord M} (hs : s.prs = Parser.reset)
    (hlen : payload.length ≤ 255)
    (hheader : Parser.Silent cfg (marker :: header) Parser.reset
      (Parser.afterHeader ver (lengthByte payload) incompat compat seq sys comp mid hcrc))
    (hf : ∀ buf : Memory, buf.firstBytes (lengthByte payload).toNat = payload →
      ({ Parser.afterHeader ver (lengthByte payload) incompat compat seq sys comp mid hcrc with
        st := .awaitChecksum
        cnt := lengthByte payload
        buf := buf
        cklo := some lo
        ckhi := some hi } : Parser).assemble cfg.registries = some f) :
    runCommands cfg (prsBytes (frameBytes marker header payload [lo, hi])) s =
      .next (s.answered (frameResponses (header.length + 2 + payload.length) f)) := by
  have hn := toNat_lengthByte hlen
  have hend := runCommands_frameEnd (cfg := cfg) (lo := lo) (hi := hi) (f := f) (s := { s with
      prs := Parser.afterHeader ver (lengthByte payload) incompat compat seq sys comp mid hcrc
      outbox := s.outbox ++ List.replicate (marker :: header).length .none })
    hn rfl rfl rfl rfl rfl (fun buf hbuf => hf buf (by rw [hn, hbuf]))
  have hbytes : frameBytes marker header payload [lo, hi] = (marker :: header) ++ (payload ++ [lo, hi]) := by
    simp [frameBytes]
  have hcount : header.length + 2 + payload.length = (marker :: header).length + (payload.length + 1) := by
    simp only [List.length_cons]; omega
  rw [hbytes, prsBytes_append, runCommands_append (Parser.Silent.run (hs ▸ hheader)), hend, frameResponses,
    hcount, ← List.replicate_append_replicate (n := (marker :: header).length), ← hs]
  simp only [State.answered, List.append_assoc]

/-- The bytes of a v1 frame (R46), with what the registries answer for it. -/
theorem runCommands_v1Frame {seq sys comp m lo hi : Byte} {payload : Bytes} {answer : MessageValue M × U16}
    (hs : s.prs = Parser.reset) (hlen : payload.length ≤ 255)
    (hanswer : recognise cfg.registries (messageIdV1 m) payload (lengthByte payload)
      (fold 0xFFFF (headerV1 (lengthByte payload) seq sys comp m)) = answer) :
    runCommands cfg (prsBytes (frameBytes 0xFE (headerV1 (lengthByte payload) seq sys comp m) payload [lo, hi])) s =
      .next (s.answered (frameResponses (7 + payload.length)
        (.v1 seq sys comp (messageIdV1 m) answer.1 (checksumField lo hi) answer.2))) := by
  refine runCommands_frameBytes hs hlen (Parser.silent_headerV1 (lengthByte payload) seq sys comp m) fun buf hbuf => ?_
  refine Parser.assemble_eq_some_iff.mpr ⟨_, _, _, _, _, _, _, rfl, rfl, rfl, rfl, rfl, rfl, rfl, .inl ⟨rfl, ?_⟩⟩
  rw [Parser.payload, hbuf, ← hanswer]
  rfl

/-- The bytes of a v2 frame (R47), of length 0 where the parameter lets it through (R6). -/
theorem runCommands_v2Frame {incompat compat seq sys comp m0 m1 m2 lo hi : Byte} {payload : Bytes}
    {answer : MessageValue M × U16} (hs : s.prs = Parser.reset) (hlen : payload.length ≤ 255)
    (hzl : cfg.v2ZeroLength = .skip ∨ payload ≠ [])
    (hanswer : recognise cfg.registries (messageIdV2 m0 m1 m2) payload (lengthByte payload)
      (fold 0xFFFF (headerV2 (lengthByte payload) incompat compat seq sys comp [m0, m1, m2])) = answer) :
    runCommands cfg (prsBytes (frameBytes 0xFD
        (headerV2 (lengthByte payload) incompat compat seq sys comp [m0, m1, m2]) payload [lo, hi])) s =
      .next (s.answered (frameResponses (11 + payload.length)
        (.v2 incompat compat seq sys comp (messageIdV2 m0 m1 m2) answer.1 (checksumField lo hi) answer.2))) := by
  have hne : payload ≠ [] → lengthByte payload ≠ 0 := fun hp hz =>
    hp (List.eq_nil_of_length_eq_zero (by rw [← toNat_lengthByte hlen, hz]; rfl))
  refine runCommands_frameBytes hs hlen
    (Parser.silent_headerV2 (lengthByte payload) incompat compat seq sys comp m0 m1 m2 (hzl.imp_right hne))
    fun buf hbuf => ?_
  refine Parser.assemble_eq_some_iff.mpr
    ⟨_, _, _, _, _, _, _, rfl, rfl, rfl, rfl, rfl, rfl, rfl, .inr ⟨rfl, _, _, rfl, rfl, ?_⟩⟩
  rw [Parser.payload, hbuf, ← hanswer]
  rfl

/-- Settles O51: the header states in turn, then the payload and the checksum, and the record they fill assembles. -/
theorem v1FrameBytesGiveOneFrame : Obligations.V1FrameBytesGiveOneFrame := by
  intro M cfg s seq sys comp m lo hi payload hs hlen header answer
  rw [List.append_assoc]
  exact runCommands_v1Frame hs hlen rfl

/-- Settles O52: as O51, through the two flag states and three message-ID bytes. -/
theorem v2FrameBytesGiveOneFrame : Obligations.V2FrameBytesGiveOneFrame := by
  intro M cfg s incompat compat seq sys comp m0 m1 m2 lo hi payload hs hlen hzl header id answer
  rw [List.append_assoc]
  exact runCommands_v2Frame hs hlen hzl rfl

/-! ### Two frames. -/

/-- The bytes of a frame of either version, from every cleared record: `NONE` for each but the last, then the one frame
they hold. -/
theorem IsWireFrame.run (cfg : Params M) {bytes : Bytes} (h : IsWireFrame cfg.v2ZeroLength bytes) :
    ∃ n f, ∀ s : State M, s.prs = Parser.reset → runCommands cfg (prsBytes bytes) s =
      .next (s.answered (frameResponses n f)) := by
  rcases h with ⟨seq, sys, comp, m, lo, hi, payload, hlen, rfl⟩ |
    ⟨incompat, compat, seq, sys, comp, m0, m1, m2, lo, hi, payload, hlen, hzl, rfl⟩
  · exact ⟨_, _, fun s hs => runCommands_v1Frame hs hlen rfl⟩
  · exact ⟨_, _, fun s hs => runCommands_v2Frame hs hlen hzl rfl⟩

/-- Settles O53: each of the three parts runs from the cleared record that the part before it left. -/
theorem twoFramesAcrossNoiseGiveTwoFrames : Obligations.TwoFramesAcrossNoiseGiveTwoFrames := by
  intro M cfg s first noise second hs hfirst hsecond hnoise
  obtain ⟨n1, f1, run1⟩ := hfirst.run
  obtain ⟨n2, f2, run2⟩ := hsecond.run
  have cleared (rs : List (Response M)) : (s.answered rs).prs = Parser.reset := hs
  have waits (rs : List (Response M)) : (s.answered rs).prs.st = .awaitStart := congrArg Parser.st (cleared rs)
  have hrun : runCommands cfg (prsBytes (first ++ noise ++ second)) s = .next (s.answered
      (frameResponses n1 f1 ++ List.replicate noise.length .none ++ frameResponses n2 f2)) := by
    rw [prsBytes_append, prsBytes_append, List.append_assoc, runCommands_append (run1 s hs),
      runCommands_append (runCommands_noise (waits _) hnoise), State.answered_answered, run2 _ (cleared _),
      State.answered_answered]
  exact ⟨_, _, _, f1, f2, hrun, run1 s hs, framesOf_answered_frameResponses s n1 f1, run2 s hs,
    framesOf_answered_frameResponses s n2 f2, by simp, cleared _⟩

/-! ### The round trip. -/

/-- Where the serializer sends the checksum that the parser computed, a valid frame gets its own checksum bytes back and
an invalid one gets others (R55). -/
theorem roundTrip_of_serialize {codec : Codec M} {f : FrameRecord M} {marker lo hi : Byte} {header payload : Bytes}
    (hexpected : f.expected = checksumField lo hi)
    (hser : serialize codec f = some (frameBytes marker header payload (checksumBytes f.actual))) :
    (f.valid = true → serialize codec f = some (frameBytes marker header payload [lo, hi])) ∧
    (f.valid = false → ∃ lo' hi', serialize codec f = some (frameBytes marker header payload [lo', hi']) ∧
      [lo', hi'] ≠ [lo, hi]) := by
  constructor
  · intro hvalid
    rw [hser, ← f.valid_iff.mp hvalid, hexpected, checksumBytes_checksumField]
  · intro hinvalid
    refine ⟨_, _, hser, fun hsame => ?_⟩
    obtain ⟨hlo, hhi⟩ : f.actual.extractLsb' 0 8 = lo ∧ f.actual.extractLsb' 8 8 = hi := by simpa using hsame
    have hvalid : f.valid = true := f.valid_iff.mpr (by rw [hexpected, ← hlo, ← hhi, checksumField_bytes])
    exact nomatch hvalid.symm.trans hinvalid

/-- The serializer's frame for a payload that fits the length byte. -/
theorem serializeWith_of_fits (codec : Codec M) (message : MessageValue M) (marker : Byte) (header : Byte → Bytes)
    {payload : Bytes} (h : payload.length ≤ 255) :
    serializeWith codec message marker header payload = some (frameBytes marker (header (lengthByte payload)) payload
      (checksumBytes (frameChecksum (header (lengthByte payload)) payload (codec.nelOf message)
        (codec.crcExtraOf message)))) :=
  if_pos h

theorem recognise_of_query {regs : List (Registry M)} {id : U24} {payload : Bytes} {l : Byte} {h c : U16} {msg : M}
    (hq : queryRegistries id payload l h regs = some (msg, c)) :
    recognise regs id payload l h = (.known msg, c) := by
  rw [recognise, hq]

theorem messageIdLow_messageIdV1 (m : Byte) : messageIdLow (messageIdV1 m) = m :=
  extractByte_eq (by rw [toNat_messageIdV1]; omega)

/-- Settles O57: the one frame carries the registries' message and checksum, which the codec and `FrameChecksum` give
back. -/
theorem v1FrameRoundTrips : Obligations.V1FrameRoundTrips := by
  intro M cfg codec s seq sys comp m lo hi payload msg c hs hlen header hquery hencode hc
  have hrun := runCommands_v1Frame (s := s) (lo := lo) (hi := hi) hs hlen (recognise_of_query hquery)
  refine ⟨_, _, hrun, framesOf_answered_frameResponses s _ _, roundTrip_of_serialize rfl ?_⟩
  rw [serialize, Codec.payloadOf, hencode, serializeWith_of_fits _ _ _ _ hlen, messageIdLow_messageIdV1]
  exact congrArg (fun c => some (frameBytes 0xFE header payload (checksumBytes c))) hc.symm

/-- Settles O58: as O57, with the payload trimmed and the message ID in three bytes. -/
theorem v2FrameRoundTrips : Obligations.V2FrameRoundTrips := by
  intro M cfg codec s incompat compat seq sys comp m0 m1 m2 lo hi payload msg c hs hlen hzl header hquery hencode hc
  have hrun := runCommands_v2Frame (s := s) (lo := lo) (hi := hi) hs hlen hzl (recognise_of_query hquery)
  refine ⟨_, _, hrun, framesOf_answered_frameResponses s _ _, roundTrip_of_serialize rfl ?_⟩
  rw [serialize, Codec.payloadOf, hencode, serializeWith_of_fits _ _ _ _ hlen, messageIdBytes_messageIdV2]
  exact congrArg (fun c => some (frameBytes 0xFD header payload (checksumBytes c))) hc.symm

end Sys2Proof.Machine
end

section
/-! What one wire byte does to the payload buffer and to the flag fields, and where it stops the machine
(spec/41_parser.md section 2, 93_implementation_defined.md I3). -/

namespace Sys2Proof.Machine

variable {M : Type} {cfg : Params M} {p q : Parser} {b : Byte} {r : Response M}

/-- Settles O25: the rules of the two states. -/
theorem flagBytesAreStoredVerbatimAndFolded : Obligations.FlagBytesAreStoredVerbatimAndFolded := fun _ _ =>
  ⟨fun hst => exec_prsByte_of_consume (Parser.consume_incompatFlags hst),
    fun hst => exec_prsByte_of_consume (Parser.consume_compatFlags hst)⟩

/-! ### Where a byte stops the machine. -/

theorem execWith_prsByte_eq_fault_iff {s : State M} {f : Fault} :
    execWith cfg (.prsByte b) s = .fault f ↔ s.prs.consume cfg b = .error f := by
  rw [execWith, execPrsByteWith]
  split <;> simp [*]

/-- Blocks whose state rules agree on a byte agree on its command. -/
theorem execWith_prsByte_congr {cfg' : Params M} {s : State M} (h : s.prs.consume cfg b = s.prs.consume cfg' b) :
    execWith cfg (.prsByte b) s = execWith cfg' (.prsByte b) s := by
  rw [execWith, execWith, execPrsByteWith, execPrsByteWith, h]

/-- The byte would complete the message ID of an empty v2 frame (I3). -/
abbrev Parser.EndsEmptyV2Header (p : Parser) : Prop := p.ver = some .v2 ∧ p.len = some 0 ∧ p.mid.length = 2

theorem Parser.EndsEmptyV2Header.last (h : p.EndsEmptyV2Header) : p.mid.length + 1 = p.need := by
  simp [need, h.1, h.2.2]

/-- `V2_ZERO_LENGTH` is asked for by the byte that ends the header of an empty v2 frame, and by no other (R6, R75). -/
theorem Parser.onMessageId_eq_skip (h : ¬ p.EndsEmptyV2Header) (zl : V2ZeroLength) (b : Byte) :
    p.onMessageId zl b = p.onMessageId .skip b := by
  by_cases hlast : p.mid.length + 1 = p.need
  · have hafter : p.afterMessageId zl = p.afterMessageId .skip := by
      rw [afterMessageId_skip]
      unfold afterMessageId
      split
      · rename_i hlen
        exact if_neg fun hv => h ⟨hv.1, hlen, by simpa [need, hv.1] using hlast⟩
      · rfl
    rw [onMessageId_last hlast, onMessageId_last_ok hlast (hafter.trans p.afterMessageId_skip)]
  · rw [onMessageId_more hlast, onMessageId_more hlast]

/-- Under `FAULT` that byte stops the machine (I3). -/
theorem Parser.EndsEmptyV2Header.onMessageId_fault (h : p.EndsEmptyV2Header) (b : Byte) :
    p.onMessageId .fault b = .error .v2ZeroLength :=
  onMessageId_last_error h.last (by simp [afterMessageId, h.1, h.2.1])

/-- A message-ID byte that is taken is appended and folded, and the state goes on (R75). -/
theorem Parser.onMessageId_eq_ok {zl : V2ZeroLength} (h : p.onMessageId zl b = .ok q) :
    ∃ st, q = { p.appendMessageId b with st := st } := by
  unfold onMessageId at h
  split at h
  · split at h
    · exact ⟨_, (Except.ok.inj h).symm⟩
    · cases h
  · exact ⟨p.st, (Except.ok.inj h).symm⟩

/-- `SKIP` never stops at a message-ID byte (R6). -/
theorem Parser.onMessageId_skip_ne_error (p : Parser) (b : Byte) (f : Fault) : p.onMessageId .skip b ≠ .error f := by
  by_cases hlast : p.mid.length + 1 = p.need
  · rw [onMessageId_last hlast]; nofun
  · rw [onMessageId_more hlast]; nofun

/-- Settles O28: the parameter is asked for in that one case, and elsewhere the byte does what it does under `SKIP`. -/
theorem cautiousParameterStopsOnEmptyV2Frames : Obligations.CautiousParameterStopsOnEmptyV2Frames := by
  intro M cfg s b hcfg hst
  rw [execWith_prsByte_eq_fault_iff, Parser.consume_messageId hst, hcfg]
  refine ⟨⟨fun hfault => ?_, fun h => by rw [Parser.EndsEmptyV2Header.onMessageId_fault h, silently_error]⟩,
    fun h => execWith_prsByte_congr ?_⟩
  · refine Decidable.byContradiction fun h => ?_
    rw [Parser.onMessageId_eq_skip h] at hfault
    cases hskip : s.prs.onMessageId .skip b with
    | ok q => rw [hskip] at hfault; cases hfault
    | error f => exact s.prs.onMessageId_skip_ne_error b f hskip
  · rw [Parser.consume_messageId hst, Parser.consume_messageId hst, Parser.onMessageId_eq_skip h]

/-- A payload byte past the end of the buffer stops the machine (log 10). -/
theorem Parser.onPayload_error (b : Byte) (h : ¬ p.storeIndex < Config.payloadCapacity) :
    p.onPayload b = .error .bufferIndexAbsent :=
  if_neg h

/-- Settles O29: `BUF` has a byte at every cursor but 255. -/
theorem payloadByteIsStoredAtTheCursor : Obligations.PayloadByteIsStoredAtTheCursor := by
  intro s b hst
  have hc := Parser.consume_payload (cfg := Config.params) (b := b) hst
  constructor
  · intro hcnt
    have hi : s.prs.storeIndex < Config.payloadCapacity := by
      unfold Parser.storeIndex Config.payloadCapacity
      bv_omega
    rw [Parser.onPayload_ok b hi, silently_ok, hst] at hc
    rw [exec_prsByte_of_consume hc]
    simp only [State.respond, State.setParser, eq_comm]
  · intro hcnt
    rw [Parser.onPayload_error b (by simp [Parser.storeIndex, hcnt, Config.payloadCapacity]), silently_error] at hc
    rw [← execWith_params]
    exact execWith_prsByte_eq_fault_iff.mpr hc

/-! ### The payload buffer. -/

theorem silently_eq_ok_iff {x : Except Fault Parser} : silently x = .ok (q, r) ↔ x = .ok q ∧ r = .none := by
  cases x <;> simp [silently, eq_comm]

/-- What a byte does to `BUF` (R26): AWAIT_PAYLOAD stores it at the cursor, the second checksum byte empties the buffer,
and no other byte touches it. -/
theorem Parser.consume_buf (h : p.consume cfg b = .ok (q, r)) :
    (p.st = .awaitPayload ∧ p.storeIndex < Config.payloadCapacity ∧ q.buf = p.buf.write p.storeIndex b) ∨
    ((p.st = .awaitChecksum ∧ p.cklo ≠ none) ∧ q.buf = []) ∨
    ((p.st ≠ .awaitPayload ∧ (p.st = .awaitChecksum → p.cklo = none)) ∧ q.buf = p.buf) := by
  cases hst : p.st with
  | awaitPayload =>
    rw [consume_payload hst, silently_eq_ok_iff] at h
    by_cases hi : p.storeIndex < Config.payloadCapacity
    · rw [onPayload_ok b hi] at h
      exact .inl ⟨rfl, hi, by rw [← Except.ok.inj h.1]⟩
    · rw [onPayload_error b hi] at h
      cases h.1
  | awaitChecksum =>
    rw [consume_checksum hst] at h
    cases hlo : p.cklo with
    | none =>
      rw [onChecksum_first hlo] at h
      cases h
      exact .inr (.inr ⟨⟨nofun, fun _ => rfl⟩, rfl⟩)
    | some lo =>
      rw [onChecksum_second hlo] at h
      cases h
      exact .inr (.inl ⟨⟨rfl, nofun⟩, rfl⟩)
  | awaitMessageId =>
    rw [consume_messageId hst, silently_eq_ok_iff] at h
    obtain ⟨st, rfl⟩ := onMessageId_eq_ok h.1
    exact .inr (.inr ⟨⟨nofun, nofun⟩, rfl⟩)
  | awaitStart =>
    rw [consume_start hst] at h
    cases h
    refine .inr (.inr ⟨⟨nofun, nofun⟩, ?_⟩)
    unfold onStart
    (repeat' split) <;> rfl
  | _ =>
    simp only [consume, hst] at h
    cases h
    exact .inr (.inr ⟨⟨nofun, nofun⟩, rfl⟩)

/-- Every byte keeps the canonical form of the buffer (log 9). -/
theorem Parser.consume_bufWf (hwf : p.buf.wf) (h : p.consume cfg b = .ok (q, r)) : q.buf.wf := by
  rcases consume_buf h with ⟨-, hi, hbuf⟩ | ⟨-, hbuf⟩ | ⟨-, hbuf⟩ <;> rw [hbuf]
  · exact Memory.write_wf b hwf hi
  · simp [Memory.wf]
  · exact hwf

/-- `CNT` never passes `LEN` (R27, R88.6). -/
theorem Parser.Inv.cnt_le_len (h : p.Inv) {l : Byte} (hl : p.len = some l) : p.cnt.toNat ≤ l.toNat := by
  cases hst : p.st with
  | awaitPayload =>
    obtain ⟨l', hl', -, hlt⟩ := h.payloadBound hst
    obtain rfl := Option.some.inj (hl.symm.trans hl')
    exact Nat.le_of_lt hlt
  | awaitChecksum =>
    obtain rfl := Option.some.inj (hl.symm.trans (h.payloadWhole hst))
    exact Nat.le_refl _
  | _ => simp [h.cntZero (by simp [hst, ParserState.code])]

/-- Settles O47: in AWAIT_PAYLOAD `CNT` is below a length byte. -/
theorem bufferCannotOverflow : Obligations.BufferCannotOverflow := by
  intro p h
  refine ⟨fun l => h.cnt_le_len, by omega, fun hst => ?_⟩
  obtain ⟨l, -, -, hlt⟩ := h.payloadBound hst
  unfold Parser.storeIndex
  omega

/-! ### The flag fields. -/

variable {incompat compat : Byte}

theorem Parser.onStart_withFlags (p : Parser) (b : Byte) :
    (p.withFlags incompat compat).onStart b = (p.onStart b).withFlags incompat compat := by
  unfold onStart
  (repeat' split) <;> rfl

theorem Parser.onMessageId_withFlags (p : Parser) (zl : V2ZeroLength) (b : Byte) :
    (p.withFlags incompat compat).onMessageId zl b = (p.onMessageId zl b).map (·.withFlags incompat compat) := by
  by_cases hlast : p.mid.length + 1 = p.need
  · cases hafter : p.afterMessageId zl with
    | ok st => rw [onMessageId_last_ok hlast hafter, onMessageId_last_ok (p := p.withFlags _ _) hlast hafter]; rfl
    | error f =>
      rw [onMessageId_last_error hlast hafter, onMessageId_last_error (p := p.withFlags _ _) hlast hafter]
      rfl
  · rw [onMessageId_more hlast, onMessageId_more (p := p.withFlags _ _) hlast]
    rfl

theorem Parser.onPayload_withFlags (p : Parser) (b : Byte) :
    (p.withFlags incompat compat).onPayload b = (p.onPayload b).map (·.withFlags incompat compat) := by
  by_cases hi : p.storeIndex < Config.payloadCapacity
  · rw [onPayload_ok b hi, onPayload_ok b (by exact hi)]
    rfl
  · rw [onPayload_error b hi, onPayload_error b (by exact hi)]
    rfl

theorem silently_map (g : Parser → Parser) (x : Except Fault Parser) :
    silently (M := M) (x.map g) = (silently x).map (fun answer => (g answer.1, answer.2)) := by
  cases x <;> rfl

/-- Outside the two flag states every byte but the second of the checksum passes the flag fields on as they are. -/
theorem Parser.consume_withFlags (hi : p.st ≠ .awaitIncompatFlags) (hc : p.st ≠ .awaitCompatFlags)
    (hlo : p.st = .awaitChecksum → p.cklo = none) (cfg : Params M) (b : Byte) :
    (p.withFlags incompat compat).consume cfg b =
      (p.consume cfg b).map (fun answer => (answer.1.withFlags incompat compat, answer.2)) := by
  cases hst : p.st with
  | awaitIncompatFlags => exact absurd hst hi
  | awaitCompatFlags => exact absurd hst hc
  | awaitStart => rw [consume_start hst, consume_start (by exact hst), onStart_withFlags]; rfl
  | awaitMessageId =>
    rw [consume_messageId hst, consume_messageId (by exact hst), onMessageId_withFlags, silently_map]
  | awaitPayload => rw [consume_payload hst, consume_payload (by exact hst), onPayload_withFlags, silently_map]
  | awaitChecksum =>
    rw [consume_checksum hst, consume_checksum (by exact hst), onChecksum_first (hlo hst),
      onChecksum_first (by exact hlo hst)]
    rfl
  | _ =>
    simp only [consume, withFlags, hst]
    rfl

/-- Assembly copies the flag fields into a v2 frame, and does nothing else with them (R70, R71, R114). -/
theorem Parser.assemble_withFlags {regs : List (Registry M)} {i c seq sys comp : Byte} {id : U24} {m : MessageValue M}
    {e a : U16} (h : p.assemble regs = some (.v2 i c seq sys comp id m e a)) (incompat compat : Byte) :
    (p.withFlags incompat compat).assemble regs = some (.v2 incompat compat seq sys comp id m e a) := by
  obtain ⟨_, _, _, _, _, _, _, hlen, hseq, hsys, hcomp, hlo, hhi, hid, ⟨-, hf⟩ | ⟨hver, _, _, -, -, hf⟩⟩ :=
    assemble_eq_some_iff.mp h
  · cases hf
  · cases hf
    exact assemble_eq_some_iff.mpr ⟨_, _, _, _, _, _, _, hlen, hseq, hsys, hcomp, hlo, hhi, hid,
      .inr ⟨hver, _, _, rfl, rfl, rfl⟩⟩

/-- Settles O42: the second checksum byte is the only one that clears the record, and it copies the two fields. -/
theorem flagBitsAreNotInterpreted : Obligations.FlagBitsAreNotInterpreted := by
  intro M cfg p q r b i c i' c' _ _ hi hc h
  constructor
  · rintro ⟨rfl, hq⟩
    have hlo : p.st = .awaitChecksum → p.cklo = none := fun hst => by
      refine Decidable.byContradiction fun hck => ?_
      obtain ⟨lo, hlo⟩ := Option.ne_none_iff_exists'.mp hck
      rw [Parser.consume_checksum hst, Parser.onChecksum_second hlo] at h
      exact hq (congrArg Prod.fst (Except.ok.inj h)).symm
    rw [Parser.consume_withFlags hi hc hlo, h]
    rfl
  · rintro seq sys comp id m e a rfl
    rcases Parser.consume_response h with hr | ⟨hst, hck, rfl, f, hr, hf⟩
    · cases hr
    · cases hr
      obtain ⟨lo, hlo⟩ := Option.ne_none_iff_exists'.mp hck
      have hf' : ({ p.withFlags i' c' with ckhi := some b } : Parser).assemble cfg.registries = _ :=
        Parser.assemble_withFlags hf i' c'
      rw [Parser.consume_checksum (by exact hst), Parser.onChecksum_second (by exact hlo), hf']

end Sys2Proof.Machine
end

section
/-! What a command and a step leave alone and pass on (spec/00_scope.md rules R1, R4, 20_memory.md sections 3 and 4,
60_exceptions.md section 3, 70_reset_and_hazards.md). -/

namespace Sys2Proof.Machine

variable {M N : Type} {cfg : Params M}

/-! ### Outcomes with their next state mapped. -/

/-- The outcome with its next state mapped; a stop is the same stop. -/
def mapNext {σ τ φ ρ : Type} (g : σ → τ) : Host.Outcome σ φ ρ → Host.Outcome τ φ ρ
  | .next s => .next (g s)
  | .fault f => .fault f
  | .refused r => .refused r

theorem mapNext_of_next {σ τ φ ρ : Type} {o : Host.Outcome σ φ ρ} {t : σ} (g : σ → τ) (h : o = .next t) :
    mapNext g o = .next (g t) :=
  h ▸ rfl

theorem mapNext_eq_fault_iff {σ τ φ ρ : Type} {g : σ → τ} {o : Host.Outcome σ φ ρ} {e : φ} :
    mapNext g o = .fault e ↔ o = .fault e := by
  cases o <;> simp [mapNext]

theorem mapNext_eq_refused_iff {σ τ φ ρ : Type} {g : σ → τ} {o : Host.Outcome σ φ ρ} {e : ρ} :
    mapNext g o = .refused e ↔ o = .refused e := by
  cases o <;> simp [mapNext]

/-! ### The two units, and the words waiting on the port. -/

/-- A command of the parser unit. -/
abbrev IsParserCommand (i : Instr) : Prop := (∃ b, i = .prsByte b) ∨ i = .prsReset

/-- A command of the CRC unit. -/
abbrev IsCrcCommand (i : Instr) : Prop := (∀ b, i ≠ .prsByte b) ∧ i ≠ .prsReset

theorem execPrsByteWith_setAcc (cfg : Params M) (b : Byte) (s : State M) (v : U16) :
    execPrsByteWith cfg b (s.setAcc v) = mapNext (·.setAcc v) (execPrsByteWith cfg b s) := by
  rw [execPrsByteWith, execPrsByteWith, State.setAcc_prs]
  cases s.prs.consume cfg b <;> rfl

/-- A parser command does the same whatever `ACC` holds, and keeps it (R1). -/
theorem execWith_setAcc {i : Instr} (hi : IsParserCommand i) (s : State M) (v : U16) :
    execWith cfg i (s.setAcc v) = mapNext (·.setAcc v) (execWith cfg i s) := by
  rcases hi with ⟨b, rfl⟩ | rfl
  · exact execPrsByteWith_setAcc cfg b s v
  · rfl

theorem acc_of_parserCommand {i : Instr} {s t : State M} (h : execWith cfg i s = .next t) (hi : IsParserCommand i) :
    t.acc = s.acc := by
  obtain ⟨a, p, r, rfl, hcase⟩ := execWith_cases h
  rcases hi with ⟨b, rfl⟩ | rfl <;> exact hcase.1

/-- A CRC command does the same whatever the parser record is, and keeps it (R1). -/
theorem execWith_setParser {i : Instr} (hi : IsCrcCommand i) (s : State M) (p : Parser) :
    execWith cfg i (s.setParser p) = mapNext (·.setParser p) (execWith cfg i s) := by
  cases i with
  | prsByte b => exact absurd rfl (hi.1 b)
  | prsReset => exact absurd rfl hi.2
  | _ => rfl

theorem prs_of_crcCommand {i : Instr} {s t : State M} (h : execWith cfg i s = .next t) (hi : IsCrcCommand i) :
    t.prs = s.prs := by
  obtain ⟨a, p, r, rfl, hcase⟩ := execWith_cases h
  cases i with
  | prsByte b => exact absurd rfl (hi.1 b)
  | prsReset => exact absurd rfl hi.2
  | _ => exact hcase.2.1

/-- Settles O39: each unit's commands read and write its own state alone. -/
theorem unitsShareNoState : Obligations.UnitsShareNoState := by
  intro i s t h
  rw [← execWith_params] at h
  refine ⟨fun hi => ⟨acc_of_parserCommand h hi, fun v => ?_⟩, fun hi => ⟨prs_of_crcCommand h hi, fun p => ?_⟩⟩
  · rw [← execWith_params, execWith_setAcc hi, mapNext_of_next _ h]
  · rw [← execWith_params, execWith_setParser hi, mapNext_of_next _ h]

@[simp] theorem State.issue_prs (s : State M) (ws : List Word) : (s.issue ws).prs = s.prs := rfl

@[simp] theorem State.issue_nil (s : State M) : s.issue [] = s := by
  rw [issue, List.map_nil, List.append_nil]

/-- The words waiting on the port do not matter to a command, and stay (R32). -/
theorem execWith_issue (cfg : Params M) (i : Instr) (s : State M) (ws : List Word) :
    execWith cfg i (s.issue ws) = mapNext (·.issue ws) (execWith cfg i s) := by
  cases i with
  | prsByte b =>
    rw [execWith, execWith, execPrsByteWith, execPrsByteWith, State.issue_prs]
    cases s.prs.consume cfg b <;> rfl
  | _ => rfl

/-- A command gives one response, which is not `ILLEGAL`, and takes no event (R40). -/
theorem execWith_response {i : Instr} {s t : State M} (h : execWith cfg i s = .next t) :
    ∃ r, r ≠ .illegal ∧ t.outbox = s.outbox ++ [r] ∧ t.inbox = s.inbox := by
  obtain ⟨a, p, r, rfl, hcase⟩ := execWith_cases h
  refine ⟨r, ?_, rfl, rfl⟩
  cases i with
  | prsByte b =>
    rcases Parser.consume_response hcase.2 with rfl | ⟨-, -, -, f, rfl, -⟩
    · nofun
    · nofun
  | _ => rw [hcase.2.2]; nofun

/-- Settles O41: the five commands' writes do not depend on what they write over, and two bytes show that the other two
commands' do. -/
theorem fixedWritesAreIdempotent : Obligations.FixedWritesAreIdempotent := by
  refine ⟨fun i s t u ⟨hacc, hbyte⟩ ht hu => ?_, ⟨State.reset, _, _, 0x00, rfl, rfl, by decide⟩,
    ⟨State.reset, _, _, 0xFE, rfl, rfl, by decide⟩⟩
  cases i with
  | crcStep c b => cases ht; cases hu; exact ⟨rfl, rfl, fun _ => ⟨rfl, rfl⟩⟩
  | crcInit => cases ht; cases hu; exact ⟨rfl, rfl, by simp⟩
  | crcLoad v => cases ht; cases hu; exact ⟨rfl, rfl, by simp⟩
  | crcAcc b => exact absurd rfl (hacc b)
  | crcRead => cases ht; cases hu; exact ⟨rfl, rfl, fun _ => ⟨rfl, rfl⟩⟩
  | prsByte b => exact absurd rfl (hbyte b)
  | prsReset => cases ht; cases hu; exact ⟨rfl, rfl, by simp⟩

/-- Settles O38: a CRC command keeps the record, `PRS.RESET` empties the buffer, and of `PRS.BYTE` the rule of each
state says what it does to the buffer. -/
theorem bufferBytesChangeOnlyWhereStored : Obligations.BufferBytesChangeOnlyWhereStored := by
  intro i s t hwf h
  rw [← execWith_params] at h
  cases i with
  | prsByte b =>
    obtain ⟨a, p, r, rfl, -, hc⟩ := execWith_cases h
    rcases Parser.consume_buf hc with ⟨hst, -, hbuf⟩ | ⟨hck, hbuf⟩ | ⟨hother, hbuf⟩
    · refine .inl ⟨b, rfl, hst, ?_, fun a ha => ?_⟩
      · rw [State.respond_prs, State.setParser_prs, hbuf, Memory.read_write _ _ _ hwf.1, if_pos rfl]
      · rw [State.respond_prs, State.setParser_prs, hbuf, Memory.read_write _ _ _ hwf.1, if_neg ha.symm]
    · refine .inr (.inl ⟨.inr ⟨b, rfl, hck⟩, fun a => ?_⟩)
      rw [State.respond_prs, State.setParser_prs, hbuf]
      exact Memory.read_nil a
    · exact .inr (.inr ⟨fun _ _ => hother, nofun, fun a => by rw [State.respond_prs, State.setParser_prs, hbuf]⟩)
  | prsReset =>
    cases h
    exact .inr (.inl ⟨.inl rfl, Memory.read_nil⟩)
  | _ => exact .inr (.inr ⟨nofun, nofun, fun a => by rw [prs_of_crcCommand h ⟨nofun, nofun⟩]⟩)

/-! ### Steps. -/

/-- A step runs the command that the next word decodes to. -/
theorem step_of_decode {s : State} {w : Word} {rest : List HostEvent} {i : Instr} (hin : s.inbox = .command w :: rest)
    (hd : decode w = .ok i) : step s = exec i { s with inbox := rest } := by
  rw [step_command hin, State.command, hd]

/-- Settles O7: the port takes the word off, and the decoder names the command it runs. -/
theorem stepRunsTheDecodedCommand : Obligations.StepRunsTheDecodedCommand :=
  fun _ _ _ _ hin hd => step_of_decode hin hd

/-- A step with no event waiting changes nothing. -/
theorem step_idle {s : State} (h : s.inbox = []) : step s = .next s := by
  simp [step, State.takeEvent, h]

/-- Settles O8: two branches of what a step does with the next event. -/
theorem overlapIsRefusedAndIdleKeepsState : Obligations.OverlapIsRefusedAndIdleKeepsState :=
  ⟨fun s _ _ _ hin => by simp [step, State.takeEvent, hin], fun _ => step_idle⟩

/-- Settles O9: the step resets the block, and each field is read off the reset record, which is also what `ClearFrame`
leaves. -/
theorem powerOnSetsEveryResetValue : Obligations.PowerOnSetsEveryResetValue :=
  ⟨fun _ _ => step_powerOn, rfl, rfl, rfl, rfl, rfl, rfl, rfl, rfl, rfl, rfl, rfl, Parser.reset_buf_read, rfl, rfl, rfl,
    Parser.clearFrame_eq_reset⟩

/-- Settles O10: a command answers once and never `ILLEGAL`, an illegal word answers `ILLEGAL`. -/
theorem everyCommandGivesOneResponse : Obligations.EveryCommandGivesOneResponse := by
  intro s t w rest hin h
  cases hd : decode w with
  | ok i =>
    rw [step_of_decode hin hd, ← execWith_params] at h
    obtain ⟨r, hr, hout, hin'⟩ := execWith_response h
    exact ⟨r, hout, hin', by simp [hr]⟩
  | error e =>
    rw [answersIllegal_of_decode_error hd s rest hin] at h
    cases h
    exact ⟨.illegal, rfl, rfl, by simp⟩

/-- A step with words issued takes the first of them. -/
theorem step_issue_encode {s : State} (hin : s.inbox = []) (i : Instr) (ws : List Word) :
    step (s.issue (encode i :: ws)) = mapNext (·.issue ws) (execWith Config.params i s) := by
  have hnext : (s.issue (encode i :: ws)).inbox = .command (encode i) :: ws.map .command := by
    simp [State.issue, hin]
  have hrest : { s.issue (encode i :: ws) with inbox := ws.map .command } = s.issue ws := by simp [State.issue, hin]
  rw [step_of_decode hnext (decode_encode i), hrest, ← execWith_params, execWith_issue]

/-- Settles O11: a step takes the first word issued, and the command it runs leaves the others as they wait. -/
theorem waitingWordsRunInIssueOrder : Obligations.WaitingWordsRunInIssueOrder := by
  intro is
  induction is with
  | nil => exact fun s _ => congrArg Host.Outcome.next s.issue_nil
  | cons i is ih =>
    intro s hin
    have hstep := step_issue_encode hin i (is.map encode)
    rw [List.length_cons, List.map_cons, runCommands]
    cases hi : execWith Config.params i s with
    | next t =>
      rw [hi] at hstep
      obtain ⟨-, -, -, hin'⟩ := execWith_response hi
      rw [core_run_succ_of_next hstep]
      exact ih t (hin'.trans hin)
    | fault f =>
      rw [hi] at hstep
      exact core_run_succ_of_fault hstep
    | refused r => exact absurd hi (execWith_not_refused _ _ _ _)

/-! ### Invariants. -/

/-- What holds of the reset record and is kept by every wire byte, every step keeps. -/
theorem step_keeps {P : Parser → Prop} (hreset : P Parser.reset)
    (hconsume : ∀ p b q r, P p → p.consume Config.params b = .ok (q, r) → P q) {s t : State} (hs : P s.prs)
    (h : step s = .next t) : P t.prs := by
  rcases step_cases h with ⟨-, rfl⟩ | ⟨_, -, rfl⟩ | ⟨w, rest, -, ⟨i, -, hi⟩ | ⟨_, -, rfl⟩⟩
  · exact hs
  · exact hreset
  · rw [← execWith_params] at hi
    cases i with
    | prsByte b =>
      obtain ⟨_, p, r, rfl, -, hc⟩ := execWith_cases hi
      exact hconsume _ b p r hs hc
    | prsReset => cases hi; exact hreset
    | _ => rw [prs_of_crcCommand hi ⟨nofun, nofun⟩]; exact hs
  · exact hs

/-- Settles O44: each clause of the invariant is read off the reset record. -/
theorem resetMeetsTheInvariant : Obligations.ResetMeetsTheInvariant := Parser.reset_inv

/-- Settles O45: the reset record meets the invariant, and each state rule of the parser keeps it. -/
theorem stepKeepsTheInvariant : Obligations.StepKeepsTheInvariant := by
  intro s t
  refine step_keeps Parser.reset_inv fun p b q r hp hc => ?_
  obtain ⟨q', r', hc', hq'⟩ := hp.consume (cfg := Config.params) rfl b
  obtain ⟨rfl, -⟩ := Prod.mk.inj (Except.ok.inj (hc.symm.trans hc'))
  exact hq'

/-- Settles O46: the empty buffer is in canonical form, and each state rule of the parser keeps the form. -/
theorem stepKeepsTheBufferCanonical : Obligations.StepKeepsTheBufferCanonical := by
  intro s t
  exact step_keeps (P := fun p => p.buf.wf) (by decide) fun _ _ _ _ => Parser.consume_bufWf

/-- Settles O12: a wire byte is taken under the invariant, and nothing else but an overlapping issue stops a step. -/
theorem noStepFaultsUnderTheInvariant : Obligations.NoStepFaultsUnderTheInvariant := by
  intro s h hhost
  cases hin : s.inbox with
  | nil => exact ⟨s, step_idle hin⟩
  | cons e rest =>
    cases e with
    | overlapping first second => exact absurd hin (hhost first second rest)
    | powerOn => exact ⟨_, step_powerOn hin⟩
    | command w =>
      cases hd : decode w with
      | error e => exact ⟨_, answersIllegal_of_decode_error hd s rest hin⟩
      | ok i =>
        rw [State.stepsOn, step_of_decode hin hd]
        cases i with
        | prsByte b =>
          obtain ⟨q, r, hc, -⟩ := h.consume (cfg := Config.params) rfl b
          exact ⟨_, exec_prsByte_of_consume (s := { s with inbox := rest }) hc⟩
        | _ => exact ⟨_, rfl⟩

/-! ### Several instances. -/

/-- A step of one place of a bank replaces the state there and nothing else (R102). -/
theorem Bank.stepAt_cases {bank bank' : Bank M} {k : Nat} {inst : BlockInstance M} (hk : bank[k]? = some inst)
    (h : bank.stepAt k = .next bank') :
    ∃ t, stepWith inst.cfg inst.state = .next t ∧ bank' = bank.set k { inst with state := t } := by
  simp only [stepAt, hk] at h
  cases hstep : stepWith inst.cfg inst.state with
  | next t => rw [hstep] at h; cases h; exact ⟨t, rfl, rfl⟩
  | fault f => rw [hstep] at h; cases h
  | refused r => rw [hstep] at h; cases h

/-- Settles O43: only the entry at that place is replaced, and by the block's own next state. -/
theorem instancesAreIndependent : Obligations.InstancesAreIndependent := by
  intro M bank bank' k inst hk h
  obtain ⟨t, hstep, rfl⟩ := Bank.stepAt_cases hk h
  have hlt : k < bank.length := (List.getElem?_eq_some_iff.mp hk).1
  exact ⟨List.length_set, fun j hj => List.getElem?_set_ne hj.symm, t, hstep, List.getElem?_set_self hlt⟩

/-! ### Messages. -/

/-- The frame that the renamed registries make of a record (R80 to R83). -/
theorem Parser.assemble_rename_of_some {p : Parser} {regs : List (Registry M)} {g : FrameRecord M} (f : M → N)
    (h : p.assemble regs = some g) : p.assemble (regs.map (Registry.rename f)) = some (g.rename f) := by
  obtain ⟨len, seq, sys, comp, lo, hi, id, hlen, hseq, hsys, hcomp, hlo, hhi, hid, hver⟩ := assemble_eq_some_iff.mp h
  refine assemble_eq_some_iff.mpr
    ⟨len, seq, sys, comp, lo, hi, id, hlen, hseq, hsys, hcomp, hlo, hhi, hid, ?_⟩
  rw [recognise_rename]
  rcases hver with ⟨hver, rfl⟩ | ⟨hver, incompat, compat, hincompat, hcompat, rfl⟩
  · exact .inl ⟨hver, rfl⟩
  · exact .inr ⟨hver, incompat, compat, hincompat, hcompat, rfl⟩

/-- Assembly passes the registries' message on (R4, R80); whether there is a frame is not theirs to say. -/
theorem Parser.assemble_rename (f : M → N) (p : Parser) (regs : List (Registry M)) :
    p.assemble (regs.map (Registry.rename f)) = (p.assemble regs).map (FrameRecord.rename f) := by
  cases h : p.assemble regs with
  | some g => exact assemble_rename_of_some f h
  | none =>
    refine Option.eq_none_iff_forall_ne_some.mpr fun g hg => ?_
    obtain ⟨_, lo, hi, _, -, hlo, hhi, -⟩ := fields_of_assemble hg
    obtain ⟨g', hg'⟩ := exists_assemble (not_missesField hg) hlo hhi regs
    exact nomatch h.symm.trans hg'

theorem silently_rename (f : M → N) (x : Except Fault Parser) :
    silently x = (silently x).map (fun answer => (answer.1, Response.rename f answer.2)) := by
  cases x <;> rfl

/-- A wire byte passes the message of its frame on; only the second checksum byte has one. -/
theorem Parser.consume_rename (f : M → N) (cfg : Params M) (p : Parser) (b : Byte) :
    p.consume (cfg.rename f) b = (p.consume cfg b).map (fun answer => (answer.1, answer.2.rename f)) := by
  cases hst : p.st with
  | awaitChecksum =>
    rw [consume_checksum hst, consume_checksum hst, Params.rename_registries]
    cases hlo : p.cklo with
    | none => rw [onChecksum_first hlo, onChecksum_first hlo]; rfl
    | some lo =>
      rw [onChecksum_second hlo, onChecksum_second hlo, assemble_rename]
      cases ({ p with ckhi := some b } : Parser).assemble cfg.registries <;> rfl
  | awaitMessageId => rw [consume_messageId hst, consume_messageId hst, silently_rename f]; rfl
  | awaitPayload => rw [consume_payload hst, consume_payload hst, silently_rename f]
  | _ =>
    simp only [consume, hst]
    rfl

/-- A command passes messages on. -/
theorem execWith_rename (f : M → N) (cfg : Params M) (i : Instr) (s : State M) :
    execWith (cfg.rename f) i (s.rename f) = mapNext (State.rename f) (execWith cfg i s) := by
  cases i with
  | prsByte b =>
    rw [execWith, execWith, execPrsByteWith, execPrsByteWith, State.rename_prs, Parser.consume_rename]
    cases s.prs.consume cfg b with
    | ok answer => exact congrArg Host.Outcome.next (by simp)
    | error e => rfl
  | _ => exact congrArg Host.Outcome.next (by simp)

theorem stepWith_rename (f : M → N) (cfg : Params M) (s : State M) :
    stepWith (cfg.rename f) (s.rename f) = mapNext (State.rename f) (stepWith cfg s) := by
  rw [stepWith, stepWith, State.takeEvent, State.takeEvent, State.rename_inbox]
  cases s.inbox with
  | nil => rfl
  | cons e rest =>
    cases e with
    | powerOn => rfl
    | overlapping first second => rfl
    | command w =>
      show State.command _ (State.rename f { s with inbox := rest }) w = mapNext _ (State.command _ _ w)
      rw [State.command, State.command]
      cases decode w with
      | ok i => exact execWith_rename f cfg i _
      | error e => exact congrArg Host.Outcome.next (State.rename_illegal f _).symm

/-- Settles O60: a step passes messages on, so the renamed step is the step with its next state renamed. -/
theorem messagesAreOnlyPassedOn : Obligations.MessagesAreOnlyPassedOn := by
  intro M N f cfg s
  rw [stepWith_rename]
  exact ⟨fun _ => mapNext_of_next _, fun _ => mapNext_eq_fault_iff.symm, fun _ => mapNext_eq_refused_iff.symm⟩

end Sys2Proof.Machine
end
